-- ==== Sys2Proof/Word.lean ====
section
/-! DEFINITION. The value types of the machine: the 8-bit register and memory byte, the 16-bit word of
`I`, `PC`, stack entries and instructions, the 12-bit address field, and the 4-bit register index
(00_scope.md R6, R9; 10_state.md R20 to R25; 30_encoding.md R71). All values are unsigned. -/

namespace Sys2Proof

/-- A general register or memory value, 0..255 (R6 `XLEN`, R28). -/
abbrev Byte := BitVec 8

/-- The width of `I`, `PC`, a stack entry and an instruction word (R6 `ADDR_REG_WIDTH`, `ILEN`). -/
abbrev Word := BitVec 16

/-- The field `nnn`, an unsigned 12-bit memory address (R71). -/
abbrev Addr12 := BitVec 12

/-- A register index, the fields `x` and `y`: every value 0..15 is legal (R72). -/
abbrev Reg := Fin 16

/-- VF, general register 15 (R12, R21). -/
abbrev VF : Reg := 15

end Sys2Proof
end

