-- ==== Sys2Proof/WellFormed.lean ====
section
/-! DEFINITION. Which terms of `Instr` are instructions of the machine. The types of `Reg`, `Byte` and
`Addr12` already hold the bounds of R71; the sprite height `n` of `DRW` is the one field left to check. -/

namespace Sys2Proof

/-- The sprite height is an unsigned count 0..15, a 4-bit field (30_encoding.md R71, R72). -/
def Instr.heightOk : Instr → Bool
  | .drw _ _ n => decide (n < 16)
  | _ => true

/-- An instruction that has an encoding: every field fits the bits R71 gives it. -/
abbrev Instr.WellFormed (i : Instr) : Prop := i.heightOk = true

end Sys2Proof
end

