-- ==== Sys2Proof/Decode.lean ====
section
/-! DEFINITION. The decoder and the encoder (30_encoding.md R70 to R77). The decoder dispatches on the
top nibble and, in families 0, 5, 8, 9, E and F, on the low bits (R73); the encoder packs the same
fields. The opcode map of R74 stands beside them as a table. Every family number and secondary code is
from general knowledge of CHIP-8, adopted by D3 (log 9). -/

namespace Sys2Proof

/-! ### Fields of the word (R71) -/

/-- `op`, bits 15:12: the opcode family. -/
def fieldOp (w : Word) : BitVec 4 := w.extractLsb' 12 4
/-- `x`, bits 11:8: a register index. -/
def fieldX (w : Word) : Reg := (w.extractLsb' 8 4).toFin
/-- `y`, bits 7:4: a register index. -/
def fieldY (w : Word) : Reg := (w.extractLsb' 4 4).toFin
/-- `n`, bits 3:0: a 4-bit count. -/
def fieldN (w : Word) : BitVec 4 := w.extractLsb' 0 4
/-- `nn`, bits 7:0: an 8-bit immediate. -/
def fieldNN (w : Word) : Byte := w.extractLsb' 0 8
/-- `nnn`, bits 11:0: a 12-bit address. -/
def fieldNNN (w : Word) : Addr12 := w.extractLsb' 0 12

/-! ### The decoder -/

/-- Family 0, matched on all 16 bits (R76, D9). -/
def decodeFamily0 (w : Word) : Option Instr :=
  if w = 0x00E0#16 then some .cls
  else if w = 0x00EE#16 then some .ret
  else none

/-- Family 8, dispatched on the low nibble (R74 rows 10 to 18, R77). -/
def decodeFamily8 (x y : Reg) (n : BitVec 4) : Option Instr :=
  match n with
  | 0x0#4 => some (.ldReg x y)
  | 0x1#4 => some (.orReg x y)
  | 0x2#4 => some (.andReg x y)
  | 0x3#4 => some (.xorReg x y)
  | 0x4#4 => some (.addReg x y)
  | 0x5#4 => some (.subReg x y)
  | 0x6#4 => some (.shr x y)
  | 0x7#4 => some (.subn x y)
  | 0xE#4 => some (.shl x y)
  | _ => none

/-- Family E, dispatched on the low byte (R74 rows 24 and 25, R77). -/
def decodeFamilyE (x : Reg) (nn : Byte) : Option Instr :=
  if nn = 0x9E#8 then some (.skp x)
  else if nn = 0xA1#8 then some (.sknp x)
  else none

/-- Family F, dispatched on the low byte (R74 rows 26 to 34, R77). -/
def decodeFamilyF (x : Reg) (nn : Byte) : Option Instr :=
  if nn = 0x07#8 then some (.ldVxDT x)
  else if nn = 0x0A#8 then some (.ldVxK x)
  else if nn = 0x15#8 then some (.ldDTVx x)
  else if nn = 0x18#8 then some (.ldSTVx x)
  else if nn = 0x1E#8 then some (.addI x)
  else if nn = 0x29#8 then some (.ldF x)
  else if nn = 0x33#8 then some (.ldB x)
  else if nn = 0x55#8 then some (.storeRegs x)
  else if nn = 0x65#8 then some (.loadRegs x)
  else none

/-- The decoder of R73: a total function from the 65536 words to an instruction, or `none` for an
illegal word (R77). It depends on nothing but the word. In families 5 and 9 the low nibble must be 0 (D10). -/
def decodeWord (w : Word) : Option Instr :=
  match fieldOp w with
  | 0x0#4 => decodeFamily0 w
  | 0x1#4 => some (.jp (fieldNNN w))
  | 0x2#4 => some (.call (fieldNNN w))
  | 0x3#4 => some (.seImm (fieldX w) (fieldNN w))
  | 0x4#4 => some (.sneImm (fieldX w) (fieldNN w))
  | 0x5#4 => if fieldN w = 0#4 then some (.seReg (fieldX w) (fieldY w)) else none
  | 0x6#4 => some (.ldImm (fieldX w) (fieldNN w))
  | 0x7#4 => some (.addImm (fieldX w) (fieldNN w))
  | 0x8#4 => decodeFamily8 (fieldX w) (fieldY w) (fieldN w)
  | 0x9#4 => if fieldN w = 0#4 then some (.sneReg (fieldX w) (fieldY w)) else none
  | 0xA#4 => some (.ldI (fieldNNN w))
  | 0xB#4 => some (.jpV0 (fieldNNN w))
  | 0xC#4 => some (.rnd (fieldX w) (fieldNN w))
  | 0xD#4 => some (.drw (fieldX w) (fieldY w) (fieldN w).toNat)
  | 0xE#4 => decodeFamilyE (fieldX w) (fieldNN w)
  | 0xF#4 => decodeFamilyF (fieldX w) (fieldNN w)
  | _ => none

/-- Why bytes are no instruction: fewer than two of them, or an illegal word (R77). -/
inductive DecodeError where
  /-- Fewer than the two bytes an instruction occupies (R70). Safe: nothing is decoded. -/
  | truncated
  /-- A word that matches no row of R74 (R77). Safe: nothing is decoded. -/
  | illegalInstruction (w : Word)
deriving DecidableEq, Repr

/-- The word of two consecutive bytes, the byte at the lower address being bits 15:8 (20_memory.md R54). -/
def wordOfBytes (hi lo : Byte) : Word := BitVec.ofNat 16 (hi.toNat * 256 + lo.toNat)

/-- Decode the instruction at the head of a byte stream, with the rest of the stream (R70). -/
def decode : List Byte → Except DecodeError (Instr × List Byte)
  | hi :: lo :: rest =>
    match decodeWord (wordOfBytes hi lo) with
    | some i => .ok (i, rest)
    | none => .error (.illegalInstruction (wordOfBytes hi lo))
  | _ => .error .truncated

/-! ### The encoder -/

/-- A word of format `XY`, `XYN` or `FIXED`: four nibbles (R71). -/
def packXYN (op x y n : Nat) : Word := BitVec.ofNat 16 (op * 4096 + x * 256 + y * 16 + n)
/-- A word of format `XNN` or `X`: two nibbles and a byte, `nn = y*16 + n` (R71). -/
def packXNN (op x nn : Nat) : Word := BitVec.ofNat 16 (op * 4096 + x * 256 + nn)
/-- A word of format `NNN`: a nibble and a 12-bit address, `nnn = x*256 + nn` (R71). -/
def packNNN (op nnn : Nat) : Word := BitVec.ofNat 16 (op * 4096 + nnn)

/-- The word of a well-formed instruction, from the patterns of R74. -/
def encode : Instr → Word
  | .cls => packXYN 0x0 0x0 0xE 0x0
  | .ret => packXYN 0x0 0x0 0xE 0xE
  | .jp nnn => packNNN 0x1 nnn.toNat
  | .call nnn => packNNN 0x2 nnn.toNat
  | .seImm x nn => packXNN 0x3 x nn.toNat
  | .sneImm x nn => packXNN 0x4 x nn.toNat
  | .seReg x y => packXYN 0x5 x y 0x0
  | .ldImm x nn => packXNN 0x6 x nn.toNat
  | .addImm x nn => packXNN 0x7 x nn.toNat
  | .ldReg x y => packXYN 0x8 x y 0x0
  | .orReg x y => packXYN 0x8 x y 0x1
  | .andReg x y => packXYN 0x8 x y 0x2
  | .xorReg x y => packXYN 0x8 x y 0x3
  | .addReg x y => packXYN 0x8 x y 0x4
  | .subReg x y => packXYN 0x8 x y 0x5
  | .shr x y => packXYN 0x8 x y 0x6
  | .subn x y => packXYN 0x8 x y 0x7
  | .shl x y => packXYN 0x8 x y 0xE
  | .sneReg x y => packXYN 0x9 x y 0x0
  | .ldI nnn => packNNN 0xA nnn.toNat
  | .jpV0 nnn => packNNN 0xB nnn.toNat
  | .rnd x nn => packXNN 0xC x nn.toNat
  | .drw x y n => packXYN 0xD x y n
  | .skp x => packXNN 0xE x 0x9E
  | .sknp x => packXNN 0xE x 0xA1
  | .ldVxDT x => packXNN 0xF x 0x07
  | .ldVxK x => packXNN 0xF x 0x0A
  | .ldDTVx x => packXNN 0xF x 0x15
  | .ldSTVx x => packXNN 0xF x 0x18
  | .addI x => packXNN 0xF x 0x1E
  | .ldF x => packXNN 0xF x 0x29
  | .ldB x => packXNN 0xF x 0x33
  | .storeRegs x => packXNN 0xF x 0x55
  | .loadRegs x => packXNN 0xF x 0x65

/-- The two bytes of a word as memory holds them, high byte first (R54, R55, R70). -/
def wordBytes (w : Word) : List Byte :=
  [BitVec.ofNat 8 (w.toNat / 256), BitVec.ofNat 8 (w.toNat % 256)]

/-- The bytes of an instruction, in address order. -/
def encodeBytes (i : Instr) : List Byte := wordBytes (encode i)

/-! ### The opcode map of R74 as a table -/

/-- One row of R74: a word is this row's instruction where `w and mask = value`. -/
structure OpcodeRow where
  mnemonic : String
  mask     : Word
  value    : Word
  build    : Word → Instr

/-- Rows 1 to 9 of R74. -/
def opcodeRowsLow : List OpcodeRow :=
  [ ⟨"CLS", 0xFFFF, 0x00E0, fun _ => .cls⟩,
    ⟨"RET", 0xFFFF, 0x00EE, fun _ => .ret⟩,
    ⟨"JP_nnn", 0xF000, 0x1000, fun w => .jp (fieldNNN w)⟩,
    ⟨"CALL_nnn", 0xF000, 0x2000, fun w => .call (fieldNNN w)⟩,
    ⟨"SE_Vx__nn", 0xF000, 0x3000, fun w => .seImm (fieldX w) (fieldNN w)⟩,
    ⟨"SNE_Vx__nn", 0xF000, 0x4000, fun w => .sneImm (fieldX w) (fieldNN w)⟩,
    ⟨"SE_Vx__Vy", 0xF00F, 0x5000, fun w => .seReg (fieldX w) (fieldY w)⟩,
    ⟨"LD_Vx__nn", 0xF000, 0x6000, fun w => .ldImm (fieldX w) (fieldNN w)⟩,
    ⟨"ADD_Vx__nn", 0xF000, 0x7000, fun w => .addImm (fieldX w) (fieldNN w)⟩ ]

/-- Rows 10 to 18 of R74, family 8. -/
def opcodeRows8 : List OpcodeRow :=
  [ ⟨"LD_Vx__Vy", 0xF00F, 0x8000, fun w => .ldReg (fieldX w) (fieldY w)⟩,
    ⟨"OR_Vx__Vy", 0xF00F, 0x8001, fun w => .orReg (fieldX w) (fieldY w)⟩,
    ⟨"AND_Vx__Vy", 0xF00F, 0x8002, fun w => .andReg (fieldX w) (fieldY w)⟩,
    ⟨"XOR_Vx__Vy", 0xF00F, 0x8003, fun w => .xorReg (fieldX w) (fieldY w)⟩,
    ⟨"ADD_Vx__Vy", 0xF00F, 0x8004, fun w => .addReg (fieldX w) (fieldY w)⟩,
    ⟨"SUB_Vx__Vy", 0xF00F, 0x8005, fun w => .subReg (fieldX w) (fieldY w)⟩,
    ⟨"SHR_Vx__Vy", 0xF00F, 0x8006, fun w => .shr (fieldX w) (fieldY w)⟩,
    ⟨"SUBN_Vx__Vy", 0xF00F, 0x8007, fun w => .subn (fieldX w) (fieldY w)⟩,
    ⟨"SHL_Vx__Vy", 0xF00F, 0x800E, fun w => .shl (fieldX w) (fieldY w)⟩ ]

/-- Rows 19 to 25 of R74. -/
def opcodeRowsHigh : List OpcodeRow :=
  [ ⟨"SNE_Vx__Vy", 0xF00F, 0x9000, fun w => .sneReg (fieldX w) (fieldY w)⟩,
    ⟨"LD_I__nnn", 0xF000, 0xA000, fun w => .ldI (fieldNNN w)⟩,
    ⟨"JP_V0__nnn", 0xF000, 0xB000, fun w => .jpV0 (fieldNNN w)⟩,
    ⟨"RND_Vx__nn", 0xF000, 0xC000, fun w => .rnd (fieldX w) (fieldNN w)⟩,
    ⟨"DRW_Vx__Vy__n", 0xF000, 0xD000, fun w => .drw (fieldX w) (fieldY w) (fieldN w).toNat⟩,
    ⟨"SKP_Vx", 0xF0FF, 0xE09E, fun w => .skp (fieldX w)⟩,
    ⟨"SKNP_Vx", 0xF0FF, 0xE0A1, fun w => .sknp (fieldX w)⟩ ]

/-- Rows 26 to 34 of R74, family F. -/
def opcodeRowsF : List OpcodeRow :=
  [ ⟨"LD_Vx__DT", 0xF0FF, 0xF007, fun w => .ldVxDT (fieldX w)⟩,
    ⟨"LD_Vx__K", 0xF0FF, 0xF00A, fun w => .ldVxK (fieldX w)⟩,
    ⟨"LD_DT__Vx", 0xF0FF, 0xF015, fun w => .ldDTVx (fieldX w)⟩,
    ⟨"LD_ST__Vx", 0xF0FF, 0xF018, fun w => .ldSTVx (fieldX w)⟩,
    ⟨"ADD_I__Vx", 0xF0FF, 0xF01E, fun w => .addI (fieldX w)⟩,
    ⟨"LD_F__Vx", 0xF0FF, 0xF029, fun w => .ldF (fieldX w)⟩,
    ⟨"LD_B__Vx", 0xF0FF, 0xF033, fun w => .ldB (fieldX w)⟩,
    ⟨"LD__I___Vx", 0xF0FF, 0xF055, fun w => .storeRegs (fieldX w)⟩,
    ⟨"LD_Vx___I", 0xF0FF, 0xF065, fun w => .loadRegs (fieldX w)⟩ ]

/-- The 34 rows of R74 in its order, by the names of `spec/opcode_table.json`. -/
def opcodeMap : List OpcodeRow := opcodeRowsLow ++ opcodeRows8 ++ opcodeRowsHigh ++ opcodeRowsF

/-- R73's reading of the map: "the instruction of the first row of rule R74 for which
`w and mask = match`". -/
def decodeByMap (w : Word) : Option Instr :=
  (opcodeMap.find? fun row => w &&& row.mask == row.value).map fun row => row.build w

/-! ### The host's view of the decoder -/

/-- The instruction the decoder reads from the instruction whose bits, numbered as the opcode table
numbers them, are `w`: one 16-bit word, laid out high byte first and given to `decode`. -/
def decodeTableWord (nbits w : Nat) : Option Instr :=
  match decode (wordBytes (BitVec.ofNat 16 (w % 2 ^ nbits))) with
  | .ok (i, _) => some i
  | .error _ => none

end Sys2Proof
end

