-- ==== Sys2Proof/Config.lean ====
section
/-! DEFINITION. The construction-time parameters of the machine (00_scope.md R7) and the free values:
constants without a body for what the spec leaves unspecified, so that no proof can see a value of
theirs. -/

namespace Sys2Proof

/-- The parameter `COMPAT` (R7): `legacy` shifts read `V[y]` and bulk transfers advance `I`; `modern` shifts
work in place and bulk transfers leave `I`. Only these two combinations exist (92_eei_decisions.md D26). -/
inductive Compat where
  | legacy
  | modern
deriving DecidableEq, Repr

/-- The parameters "selected at machine construction time", which "do not change while the machine
exists" (R7, R39). The fourth parameter of R7, `rand`, is `Config.randByte`. -/
structure Params where
  compat      : Compat
  vsyncGating : Bool
  font        : Vector Byte 80
deriving DecidableEq, Repr

/-- The draws of `RND` (41_alu.md R132, D20): the n-th free value. DESIGN CHOICE, log 3. -/
opaque Config.randByte : Nat → Byte

/-- `PC` after `init`: "any 16-bit value; a model must not assume one" (10_state.md R37, 70_reset_and_hazards.md
R201). DESIGN CHOICE, log 4. -/
opaque Config.initPc : Nat → Word

/-- `FAULT_PC` after `LOAD_TOO_LARGE`, which 60_exceptions.md R173 leaves unspecified. DESIGN CHOICE, log 5. -/
opaque Config.loadFaultPc : Nat → Word

end Sys2Proof
end

