-- ==== Sys2Proof/Machine/Construction.lean ====
section
/-! DEFINITION. What the machine after reset is built with: the default font (20_memory.md R53) and the
values of the construction-time parameters in `State.reset` (00_scope.md R7). -/

namespace Sys2Proof.Machine

/-- Glyphs 0 to 3 of the default font (R53), [from general knowledge, not in source]; log 12. -/
def glyphs0to3 : Vector Byte 20 :=
  #v[0xF0, 0x90, 0x90, 0x90, 0xF0,  0x20, 0x60, 0x20, 0x20, 0x70,
     0xF0, 0x10, 0xF0, 0x80, 0xF0,  0xF0, 0x10, 0xF0, 0x10, 0xF0]

/-- Glyphs 4 to 7 (R53). -/
def glyphs4to7 : Vector Byte 20 :=
  #v[0x90, 0x90, 0xF0, 0x10, 0x10,  0xF0, 0x80, 0xF0, 0x10, 0xF0,
     0xF0, 0x80, 0xF0, 0x90, 0xF0,  0xF0, 0x10, 0x20, 0x40, 0x40]

/-- Glyphs 8 to B (R53). -/
def glyphs8toB : Vector Byte 20 :=
  #v[0xF0, 0x90, 0xF0, 0x90, 0xF0,  0xF0, 0x90, 0xF0, 0x10, 0xF0,
     0xF0, 0x90, 0xF0, 0x90, 0x90,  0xE0, 0x90, 0xE0, 0x90, 0xE0]

/-- Glyphs C to F (R53). -/
def glyphsCtoF : Vector Byte 20 :=
  #v[0xF0, 0x80, 0x80, 0x80, 0xF0,  0xE0, 0x90, 0x90, 0x90, 0xE0,
     0xF0, 0x80, 0xF0, 0x80, 0xF0,  0xF0, 0x80, 0xF0, 0x80, 0x80]

/-- The default of the parameter `FONT`: 16 glyphs of 5 bytes (R53). -/
def defaultFont : Vector Byte 80 :=
  glyphs0to3 ++ glyphs4to7 ++ glyphs8toB ++ glyphsCtoF

/-- The parameters of `State.reset`. The spec selects none of them but the default font: `COMPAT` LEGACY and
`VSYNC_GATING` false are DESIGN CHOICE, log 2. A statement about every state covers every choice. -/
def resetParams : Params := { compat := .legacy, vsyncGating := false, font := defaultFont }

end Sys2Proof.Machine
end

