-- ==== Sys2Proof/Machine/State.lean ====
section
/-! DEFINITION. The state of the machine (10_state.md), its memory and framebuffer as plain data, the
causes of a fault, the host's calls, the reasons a step stops, and the state after reset. -/

namespace Sys2Proof.Machine

/-- `MEM` as a list of address and byte pairs in one canonical form (`Memory.wf`): addresses strictly
rising, no entry equal to what an unlisted address reads as (`unlistedByte`). -/
abbrev Memory := List Host.Cell

/-- `FB` (R29): 32 rows of 64 cells; bit `cx` of row `cy` is the cell `FB[cy*64 + cx]`. -/
abbrev Framebuffer := Vector (BitVec 64) 32

/-- The fault causes of 60_exceptions.md R174, in the order of their codes. -/
inductive FaultCause where
  | loadTooLarge
  | illegalInstruction
  | stackOverflow
  | stackUnderflow
  | fetchOutOfRange
  | dataOutOfRange
  | keyIndexOutOfRange
deriving DecidableEq, Repr

/-- One call of the host (R180): the operations of R3 that may change state, `tick` among them. -/
inductive HostCall where
  | init
  | load (program : List Byte)
  | tick
  | writeKeys (snapshot : Vector Bool 16)
  | advanceTimers
  | setVblank (b : Bool)
deriving DecidableEq, Repr

/-- The complete state of one machine (R20 to R34), the parameters it was built with (R7), and two fields
of the model's own: `freeIndex` and `hostCalls`. -/
structure State where
  /-- `V[0..15]` (R20). -/
  v : Vector Byte 16
  /-- `I` (R22). -/
  i : Word
  /-- `PC` (R23). -/
  pc : Word
  /-- `STACK[0..15]` (R25). -/
  stack : Vector Word 16
  /-- `SP`, the count of entries in use, 0..16 (R26). -/
  sp : Fin 17
  /-- `MEM[0..4095]` (R28). -/
  mem : Memory
  /-- `FB[0..2047]` (R29). -/
  fb : Framebuffer
  /-- `DT` (R30). -/
  dt : Byte
  /-- `ST` (R30). -/
  st : Byte
  /-- `KEYS[0..15]` (R31). -/
  keys : Vector Bool 16
  /-- `KEYLATCH` (R32). -/
  keyLatch : Option (Fin 16)
  /-- `VBLANK` (R33). -/
  vblank : Bool
  /-- `LOADED` (R34). -/
  loaded : Bool
  /-- `FAULT` (R34). -/
  fault : Bool
  /-- `FAULT_CODE` (R34, R174). -/
  faultCode : BitVec 3
  /-- `FAULT_PC` (R34). -/
  faultPc : Word
  /-- `FAULT_WORD` (R34). -/
  faultWord : Word
  /-- `FAULT_INFO` (R34, R174). -/
  faultInfo : Word
  /-- `COMPAT`, `VSYNC_GATING` and `FONT` (R7): carried with the machine, changed by no step. Log 2. -/
  params : Params
  /-- The model's own: the index of the next free value. Log 3, 4, 5. -/
  freeIndex : Nat
  /-- The model's own: the host's calls still to come, oldest first (R8, D28). Log 6. -/
  hostCalls : List HostCall
deriving DecidableEq, Repr

/-- The faults of the interface: none. Every fault of the spec is a next state with the status record
written (60_exceptions.md R173); log 1. Safe. -/
inductive Fault where
deriving DecidableEq, Repr

/-- Why a step has no next state. -/
inductive Refusal where
  /-- Raised by `exec` for an instruction without a meaning: none is left. Safe. -/
  | notModelled (mnemonic : String)
  /-- Raised by a tick while `FAULT = 1` where no host call is to come: R170's outcome Refused, nothing changes (R172). Safe. -/
  | tickFaulted
  /-- Raised by a tick while `LOADED = 0`: R170's outcome Refused, nothing changes (R172). Safe. -/
  | tickNotLoaded
deriving DecidableEq, Repr

/-- The state `init` creates (R37, R200), with the `n`-th free value in `PC`. -/
def State.created (p : Params) (n : Nat) : State where
  v := Vector.replicate 16 0
  i := 0
  pc := Config.initPc n
  stack := Vector.replicate 16 0
  sp := 0
  mem := []
  fb := Vector.replicate 32 0
  dt := 0
  st := 0
  keys := Vector.replicate 16 false
  keyLatch := none
  vblank := false
  loaded := false
  fault := false
  faultCode := 0
  faultPc := 0
  faultWord := 0
  faultInfo := 0
  params := p
  freeIndex := n + 1
  hostCalls := []

/-- The machine right after reset: `init` on the parameters of `resetParams` (R37, R200), no host call to come. -/
def State.reset : State := State.created resetParams 0

end Sys2Proof.Machine
end

