-- ==== Sys2Proof/Machine/Ops.lean ====
section
/-! DEFINITION. The named operations every meaning is written over: memory and its reset contents
(20_memory.md), registers and `PC` (10_state.md R20 to R24), the stack controller (R27), the fetch (R54),
and entering a fault (60_exceptions.md R173, R174). There is no return from a fault (R177). -/

namespace Sys2Proof.Machine

/-! ### Memory -/

/-- What an address that no entry lists reads as: the contents after `init`, `FONT[a]` in 0..79 and 0
above (10_state.md R28, 20_memory.md R51). -/
def unlistedByte (font : Vector Byte 80) (a : Nat) : Byte :=
  if h : a < 80 then font[a] else 0

/-- Read one byte. Range checks stand in the operations that take an address (R57). -/
def Memory.read (font : Vector Byte 80) : Memory → Nat → Byte
  | [], a => unlistedByte font a
  | (b, w) :: m, a => if a = b then w else Memory.read font m a

/-- Put an entry in front, unless it says what the address reads as without one. -/
def consUnlessReset (font : Vector Byte 80) (a : Nat) (v : Byte) (m : Memory) : Memory :=
  if v = unlistedByte font a then m else (a, v) :: m

/-- Write one byte, keeping the canonical form. -/
def Memory.write (font : Vector Byte 80) : Memory → Nat → Byte → Memory
  | [], a, v => consUnlessReset font a v []
  | (b, w) :: m, a, v =>
    if a < b then consUnlessReset font a v ((b, w) :: m)
    else if a = b then consUnlessReset font a v m
    else (b, w) :: Memory.write font m a v

/-- Write bytes to consecutive addresses in increasing order (R55, R60). -/
def Memory.writeBytes (font : Vector Byte 80) : Memory → Nat → List Byte → Memory
  | m, _, [] => m
  | m, a, v :: vs => Memory.writeBytes font (Memory.write font m a v) (a + 1) vs

/-- The canonical form: addresses strictly rising, within the 4096 cells of R28, no entry equal to what
the address reads as without it. -/
abbrev Memory.wf (font : Vector Byte 80) (m : Memory) : Prop :=
  m.Pairwise (fun p q => p.1 < q.1) ∧ ∀ p ∈ m, p.1 < 4096 ∧ p.2 ≠ unlistedByte font p.1

/-- The highest address of `MEM` (R6 `MEM_SIZE`). -/
def topAddress : Nat := 4095

/-- `MEM[a]` for an address the caller has checked (R57). -/
def State.readByte (s : State) (a : Nat) : Byte := s.mem.read s.params.font a

/-- `MEM[a + k] <- bs[k]` for addresses the caller has checked (R58). -/
def State.storeBytes (s : State) (a : Nat) (bs : List Byte) : State :=
  { s with mem := s.mem.writeBytes s.params.font a bs }

/-- `MEM[a], …, MEM[a + n - 1]`. -/
def State.loadBytes (s : State) (a n : Nat) : List Byte :=
  (List.range n).map fun k => s.readByte (a + k)

/-! ### Registers and PC -/

/-- `V[x]`. No register is hard-wired and a read never faults (R20). -/
def State.getV (s : State) (x : Reg) : Byte := s.v[x]

/-- `V[x] <- b`. -/
def State.setV (s : State) (x : Reg) (b : Byte) : State := { s with v := s.v.set x b }

/-- `I <- a`. -/
def State.setI (s : State) (a : Word) : State := { s with i := a }

/-- `PC <- target`. -/
def State.setPc (s : State) (target : Word) : State := { s with pc := target }

/-- `PC <- (PC + 2) mod 65536`, the next PC of an ordinary instruction (R24). -/
def State.advance (s : State) : State := s.setPc (s.pc + 2)

/-- `PC <- (PC + 4) mod 65536` for a taken skip, else `PC + 2` (R24, 40_control_flow.md R100). -/
def State.skipIf (c : Bool) (s : State) : State := if c then s.setPc (s.pc + 4) else s.advance

/-! ### The stack controller (R25 to R27) -/

/-- Push `a`: `STACK[SP] <- a; SP <- SP + 1`, or `none` where `SP = 16`. -/
def State.push (s : State) (a : Word) : Option State :=
  if h : s.sp.val < 16 then
    some { s with stack := s.stack.set s.sp.val a, sp := ⟨s.sp.val + 1, by omega⟩ }
  else none

/-- Pop: `SP <- SP - 1; result = STACK[SP]`, or `none` where `SP = 0`. The slot keeps its value (R26). -/
def State.pop (s : State) : Option (Word × State) :=
  if h : 0 < s.sp.val then
    some (s.stack[s.sp.val - 1]'(by omega), { s with sp := ⟨s.sp.val - 1, by omega⟩ })
  else none

/-! ### Entering a fault (60_exceptions.md R173, R174) -/

/-- The code of a cause (R174). -/
def codeOf : FaultCause → BitVec 3
  | .loadTooLarge => 1
  | .illegalInstruction => 2
  | .stackOverflow => 3
  | .stackUnderflow => 4
  | .fetchOutOfRange => 5
  | .dataOutOfRange => 6
  | .keyIndexOutOfRange => 7

/-- A number saturated to 65535, for the 16-bit `FAULT_INFO` (R174). -/
def saturate16 (n : Nat) : Word := BitVec.ofNat 16 (min n 65535)

/-- `raise F(info)` exactly as R173 has it: the status record is written and nothing else changes; `PC` stays
at the faulting instruction. `word` is the instruction word where the fetch succeeded, else 0. -/
def raise (c : FaultCause) (word : Word) (info : Nat) (s : State) : State :=
  { s with fault := true, faultCode := codeOf c, faultPc := s.pc, faultWord := word,
           faultInfo := saturate16 info }

/-- The fault of the instruction `i` after its fetch: `FAULT_WORD` is the word it was decoded from,
which is `encode i` (log 30). -/
def raiseAt (c : FaultCause) (i : Instr) (info : Nat) (s : State) : State := raise c (encode i) info s

/-- The one range check of an instruction that reaches memory (R56, R139): where its highest effective
address `top` is above 4095 it raises `DATA_OUT_OF_RANGE(top)` before any write, else it goes on. -/
def rangeChecked (i : Instr) (top : Nat) (s : State) (done : State) : State :=
  if topAddress < top then raiseAt .dataOutOfRange i top s else done

/-! ### Fetch (20_memory.md R54) -/

/-- The word at `PC`, big-endian, or `none` where `PC + 1 > 4095`; no wrap, no mask, no alignment. -/
def State.fetch (s : State) : Option Word :=
  if topAddress < s.pc.toNat + 1 then none
  else some (wordOfBytes (s.readByte s.pc.toNat) (s.readByte (s.pc.toNat + 1)))

end Sys2Proof.Machine
end

