-- ==== Sys2Proof/Machine/Flags.lean ====
section
/-! DEFINITION. The 8-bit results and the flag values of 41_alu.md R119: each result is computed on
naturals and reduced mod 256; each flag is 0 or 1 in VF (10_state.md R21). The collision flag of `DRW` is
computed while drawing (Machine/Display.lean). -/

namespace Sys2Proof.Machine

/-- A flag as the byte 1 or 0. -/
def flagByte (c : Bool) : Byte := if c then 1 else 0

/-- `(a + b) mod 256` (R121, R127). -/
def sumByte (a b : Byte) : Byte := BitVec.ofNat 8 ((a.toNat + b.toNat) % 256)

/-- Carry: the sum exceeds 255 (R127). -/
def carryFlag (a b : Byte) : Bool := decide (255 < a.toNat + b.toNat)

/-- `(a - b + 256) mod 256` (R128, R130). -/
def differenceByte (a b : Byte) : Byte := BitVec.ofNat 8 ((a.toNat + 256 - b.toNat) % 256)

/-- NOT borrow: minuend at or above subtrahend (R119, R128, R130). -/
def notBorrowFlag (a b : Byte) : Bool := decide (b.toNat ≤ a.toNat)

/-- `src div 2` (R129). -/
def halfByte (src : Byte) : Byte := BitVec.ofNat 8 (src.toNat / 2)

/-- Bit 0 before the shift, the bit `SHR` shifts out (R129). -/
def shrFlag (src : Byte) : Bool := src.getLsbD 0

/-- `(src * 2) mod 256` (R131). -/
def doubleByte (src : Byte) : Byte := BitVec.ofNat 8 (src.toNat * 2 % 256)

/-- Bit 7 before the shift, the bit `SHL` shifts out (R131). -/
def shlFlag (src : Byte) : Bool := src.getLsbD 7

/-- `V[x] <- r`, then `V[15] <- flag`: with x = 15 the flag stays (R122, D11; log 20). -/
def State.setResultAndFlag (s : State) (x : Reg) (r : Byte) (flag : Bool) : State :=
  (s.setV x r).setV VF (flagByte flag)

end Sys2Proof.Machine
end

