-- ==== Sys2Proof/Machine/Operands.lean ====
section
/-! DEFINITION. The operand forms: extended addresses, effective addresses through `I`, the shift operand
by `COMPAT`, sprite coordinates, the key index, and the register range of a bulk transfer. -/

namespace Sys2Proof.Machine

/-- `zext_16(nnn)` (30_encoding.md R72). -/
def addressOf (nnn : Addr12) : Word := BitVec.ofNat 16 nnn.toNat

/-- `zext_16(nnn) + V[0]`, the target of `JP V0` (40_control_flow.md R108); it fits 16 bits and is not masked. -/
def offsetTarget (nnn : Addr12) (s : State) : Word := BitVec.ofNat 16 (nnn.toNat + (s.getV 0).toNat)

/-- The effective address `I + k` on unbounded naturals (42_index_memory.md R139). -/
def effectiveAddress (s : State) (k : Nat) : Nat := s.i.toNat + k

/-- The operand of `SHR` and `SHL`: `V[y]` if `COMPAT = LEGACY` else `V[x]` (41_alu.md R129, R131). -/
def shiftOperand (x y : Reg) (s : State) : Byte :=
  match s.params.compat with
  | .legacy => s.getV y
  | .modern => s.getV x

/-- `I` after a bulk transfer of `V[0]..V[x]`: `I + x + 1` in LEGACY, unchanged in MODERN (R144, R145). -/
def indexAfterBulk (x : Reg) (s : State) : Word :=
  match s.params.compat with
  | .legacy => s.i + BitVec.ofNat 16 (x.val + 1)
  | .modern => s.i

/-- `V[0], …, V[x]`, the bytes of a bulk store (R144). -/
def bulkBytes (x : Reg) (s : State) : List Byte := s.v.toList.take (x.val + 1)

/-- The registers after `V[k] <- MEM[I + k]` for k = 0..x; the others stay (R145). -/
def bulkLoaded (x : Reg) (s : State) : Vector Byte 16 :=
  Vector.ofFn fun k : Fin 16 => if k ≤ x then s.readByte (effectiveAddress s k.val) else s.getV k

/-- The hundreds, tens and units of a register value (R143). -/
def bcdDigits (b : Byte) : List Byte :=
  [BitVec.ofNat 8 (b.toNat / 100), BitVec.ofNat 8 (b.toNat / 10 % 10), BitVec.ofNat 8 (b.toNat % 10)]

/-- `I <- V[x] * 5`: the address of a glyph, the whole 8-bit value multiplied (R142). -/
def glyphAddress (b : Byte) : Word := BitVec.ofNat 16 (b.toNat * 5)

/-- The start column `V[x] mod 64` (43_display.md R151). -/
def startColumn (x : Reg) (s : State) : Nat := (s.getV x).toNat % 64

/-- The start row `V[y] mod 32` (R151). -/
def startRow (y : Reg) (s : State) : Nat := (s.getV y).toNat % 32

/-- The key that `V[x]` names, or `none` above 15 (44_keypad_timers.md R160). -/
def keyIndex (x : Reg) (s : State) : Option (Fin 16) :=
  if h : (s.getV x).toNat < 16 then some ⟨(s.getV x).toNat, h⟩ else none

/-- `KEYS[k] = 1`. -/
def State.keyDown (s : State) (k : Fin 16) : Bool := s.keys[k]

/-- The least k with `KEYS[k] = 1` (R162, D14; log 21). -/
def lowestKeyDown (s : State) : Option (Fin 16) := (List.finRange 16).find? fun k => s.keyDown k

end Sys2Proof.Machine
end

