-- ==== Sys2Proof/Machine/Alu.lean ====
section
/-! DEFINITION. Register load, arithmetic, logic, shift and random instructions (41_alu.md R119 to R132).
Operands are read before anything is written (R11, R122). -/

namespace Sys2Proof.Machine

/-- `LD Vx, nn` (R120). -/
def execLdImm (x : Reg) (nn : Byte) (s : State) : Host.Outcome State Fault Refusal :=
  .next (s.setV x nn).advance

/-- `ADD Vx, nn` (R121): wraps, VF not written. -/
def execAddImm (x : Reg) (nn : Byte) (s : State) : Host.Outcome State Fault Refusal :=
  .next (s.setV x (sumByte (s.getV x) nn)).advance

/-- `LD Vx, Vy` (R123). -/
def execLdReg (x y : Reg) (s : State) : Host.Outcome State Fault Refusal :=
  .next (s.setV x (s.getV y)).advance

/-- `OR Vx, Vy` (R124). -/
def execOrReg (x y : Reg) (s : State) : Host.Outcome State Fault Refusal :=
  .next (s.setV x (s.getV x ||| s.getV y)).advance

/-- `AND Vx, Vy` (R125). -/
def execAndReg (x y : Reg) (s : State) : Host.Outcome State Fault Refusal :=
  .next (s.setV x (s.getV x &&& s.getV y)).advance

/-- `XOR Vx, Vy` (R126). -/
def execXorReg (x y : Reg) (s : State) : Host.Outcome State Fault Refusal :=
  .next (s.setV x (s.getV x ^^^ s.getV y)).advance

/-- `ADD Vx, Vy` (R127): VF is the carry. -/
def execAddReg (x y : Reg) (s : State) : Host.Outcome State Fault Refusal :=
  .next (s.setResultAndFlag x (sumByte (s.getV x) (s.getV y)) (carryFlag (s.getV x) (s.getV y))).advance

/-- `SUB Vx, Vy` (R128): VF is NOT borrow. -/
def execSubReg (x y : Reg) (s : State) : Host.Outcome State Fault Refusal :=
  .next (s.setResultAndFlag x (differenceByte (s.getV x) (s.getV y))
    (notBorrowFlag (s.getV x) (s.getV y))).advance

/-- `SHR Vx, Vy` (R129): VF is the bit shifted out. -/
def execShr (x y : Reg) (s : State) : Host.Outcome State Fault Refusal :=
  .next (s.setResultAndFlag x (halfByte (shiftOperand x y s)) (shrFlag (shiftOperand x y s))).advance

/-- `SUBN Vx, Vy` (R130): the operands of `SUB` exchanged, the destination still `V[x]`. -/
def execSubn (x y : Reg) (s : State) : Host.Outcome State Fault Refusal :=
  .next (s.setResultAndFlag x (differenceByte (s.getV y) (s.getV x))
    (notBorrowFlag (s.getV y) (s.getV x))).advance

/-- `SHL Vx, Vy` (R131): VF is the bit shifted out. -/
def execShl (x y : Reg) (s : State) : Host.Outcome State Fault Refusal :=
  .next (s.setResultAndFlag x (doubleByte (shiftOperand x y s)) (shlFlag (shiftOperand x y s))).advance

/-- `RND Vx, nn` (R132): a fresh free draw, masked; the index of free values goes on by one (log 3). -/
def execRnd (x : Reg) (nn : Byte) (s : State) : Host.Outcome State Fault Refusal :=
  .next ({ s with freeIndex := s.freeIndex + 1 }.setV x (Config.randByte s.freeIndex &&& nn)).advance

end Sys2Proof.Machine
end

