-- ==== Sys2Proof/Machine/Control.lean ====
section
/-! DEFINITION. Control-transfer instructions (40_control_flow.md R100 to R108). -/

namespace Sys2Proof.Machine

/-- `RET` (R101): pop the call site and go past it by 2, or `STACK_UNDERFLOW(PC)`. -/
def execRet (s : State) : Host.Outcome State Fault Refusal :=
  match s.pop with
  | none => .next (raiseAt .stackUnderflow .ret s.pc.toNat s)
  | some (site, t) => .next (t.setPc (site + 2))

/-- `JP nnn` (R102). -/
def execJp (nnn : Addr12) (s : State) : Host.Outcome State Fault Refusal :=
  .next (s.setPc (addressOf nnn))

/-- `CALL nnn` (R103): push the address of this `CALL`, or `STACK_OVERFLOW(PC)`. -/
def execCall (nnn : Addr12) (s : State) : Host.Outcome State Fault Refusal :=
  match s.push s.pc with
  | none => .next (raiseAt .stackOverflow (.call nnn) s.pc.toNat s)
  | some t => .next (t.setPc (addressOf nnn))

/-- `SE Vx, nn` (R104). -/
def execSeImm (x : Reg) (nn : Byte) (s : State) : Host.Outcome State Fault Refusal :=
  .next (s.skipIf (s.getV x == nn))

/-- `SNE Vx, nn` (R105). -/
def execSneImm (x : Reg) (nn : Byte) (s : State) : Host.Outcome State Fault Refusal :=
  .next (s.skipIf (s.getV x != nn))

/-- `SE Vx, Vy` (R106). -/
def execSeReg (x y : Reg) (s : State) : Host.Outcome State Fault Refusal :=
  .next (s.skipIf (s.getV x == s.getV y))

/-- `SNE Vx, Vy` (R107). -/
def execSneReg (x y : Reg) (s : State) : Host.Outcome State Fault Refusal :=
  .next (s.skipIf (s.getV x != s.getV y))

/-- `JP V0, nnn` (R108). -/
def execJpV0 (nnn : Addr12) (s : State) : Host.Outcome State Fault Refusal :=
  .next (s.setPc (offsetTarget nnn s))

end Sys2Proof.Machine
end

