-- ==== Sys2Proof/Machine/Display.lean ====
section
/-! DEFINITION. The framebuffer and the display instructions (10_state.md R29; 43_display.md R150 to R153). -/

namespace Sys2Proof.Machine

/-- The cell of column `cx` and row `cy`, `FB[cy*64 + cx]`; false outside the grid. -/
def cellAt (fb : Framebuffer) (cx cy : Nat) : Bool :=
  if h : cy < 32 then fb[cy].getLsbD cx else false

/-- `FB[j] <- FB[j] xor 1` for the cell of column `cx` and row `cy`, clipped at the grid's edges. -/
def flipCell (fb : Framebuffer) (cx cy : Nat) : Framebuffer :=
  if h : cy < 32 then fb.set cy (fb[cy] ^^^ (1#64 <<< cx)) else fb

/-- `CLS` sets every cell to 0 (R150). -/
def blankFramebuffer : Framebuffer := Vector.replicate 32 0

/-- What a draw has done so far: the framebuffer and whether a set cell was cleared (R151). -/
structure Drawing where
  fb        : Framebuffer
  collision : Bool
deriving DecidableEq, Repr

/-- Sprite column `c` of the row byte `b` at row `cy`: bit `7 - c` of the byte is the pixel (D12; log 13); columns
past the right edge are clipped. -/
def drawPixel (b : Byte) (x0 cy : Nat) (d : Drawing) (c : Nat) : Drawing :=
  if x0 + c ≤ 63 ∧ b.getLsbD (7 - c) = true then
    { fb := flipCell d.fb (x0 + c) cy, collision := d.collision || cellAt d.fb (x0 + c) cy }
  else d

/-- One sprite row, leftmost column first; rows below the bottom edge are clipped (R151). -/
def drawRow (b : Byte) (x0 cy : Nat) (d : Drawing) : Drawing :=
  if cy ≤ 31 then (List.range 8).foldl (drawPixel b x0 cy) d else d

/-- Sprite rows from the top: the first byte at row `cy`, the next below it (R151). -/
def drawRows : List Byte → Nat → Nat → Drawing → Drawing
  | [], _, _, d => d
  | b :: bs, x0, cy, d => drawRows bs x0 (cy + 1) (drawRow b x0 cy d)

/-- The drawing of `DRW Vx, Vy, n`: n bytes from `I`, at (`V[x]` mod 64, `V[y]` mod 32) (R151). -/
def spriteDrawn (x y : Reg) (n : Nat) (s : State) : Drawing :=
  drawRows (s.loadBytes (effectiveAddress s 0) n) (startColumn x s) (startRow y s)
    { fb := s.fb, collision := false }

/-- The vsync gate holds the draw back: `VSYNC_GATING` and `VBLANK = 0` (R152). -/
def drawGated (s : State) : Bool := s.params.vsyncGating && !s.vblank

/-- `VBLANK` after a completed draw: cleared where the draw is gated at all (R152, D15; log 22). -/
def vblankAfterDraw (s : State) : Bool := !s.params.vsyncGating && s.vblank

/-- A draw that completes: the framebuffer, VF with the collision, `VBLANK` (R151, R152). -/
def drawCompleted (d : Drawing) (s : State) : State :=
  { s with fb := d.fb, vblank := vblankAfterDraw s }.setV VF (flagByte d.collision) |>.advance

/-- `CLS` (R150): not gated, VF not written. -/
def execCls (s : State) : Host.Outcome State Fault Refusal :=
  .next { s with fb := blankFramebuffer }.advance

/-- `DRW Vx, Vy, n` (R151, R152): retry at the gate, then the range check of all n bytes, then the draw.
With n = 0 no byte is read and none is checked (D22; log 25). -/
def execDrw (x y : Reg) (n : Nat) (s : State) : Host.Outcome State Fault Refusal :=
  if drawGated s then .next s
  else if n = 0 then .next (drawCompleted (spriteDrawn x y 0 s) s)
  else .next (rangeChecked (.drw x y n) (effectiveAddress s (n - 1)) s (drawCompleted (spriteDrawn x y n s) s))

end Sys2Proof.Machine
end

