-- ==== Sys2Proof/Machine/IndexMemory.lean ====
section
/-! DEFINITION. Index-register and memory instructions (42_index_memory.md R139 to R145). The range check
of the whole access precedes every write (R56). -/

namespace Sys2Proof.Machine

/-- `LD I, nnn` (R140). -/
def execLdI (nnn : Addr12) (s : State) : Host.Outcome State Fault Refusal :=
  .next (s.setI (addressOf nnn)).advance

/-- `ADD I, Vx` (R141): wraps at 16 bits, no flag. -/
def execAddI (x : Reg) (s : State) : Host.Outcome State Fault Refusal :=
  .next (s.setI (BitVec.ofNat 16 ((s.i.toNat + (s.getV x).toNat) % 65536))).advance

/-- `LD F, Vx` (R142). -/
def execLdF (x : Reg) (s : State) : Host.Outcome State Fault Refusal :=
  .next (s.setI (glyphAddress (s.getV x))).advance

/-- `LD B, Vx` (R143): hundreds at `I`, tens at `I + 1`, units at `I + 2`. -/
def execLdB (x : Reg) (s : State) : Host.Outcome State Fault Refusal :=
  .next (rangeChecked (.ldB x) (effectiveAddress s 2) s
    (s.storeBytes (effectiveAddress s 0) (bcdDigits (s.getV x))).advance)

/-- `LD [I], Vx` (R144): `V[k]` to `I + k` for k = 0..x. -/
def execStoreRegs (x : Reg) (s : State) : Host.Outcome State Fault Refusal :=
  .next (rangeChecked (.storeRegs x) (effectiveAddress s x.val) s
    ((s.storeBytes (effectiveAddress s 0) (bulkBytes x s)).setI (indexAfterBulk x s)).advance)

/-- `LD Vx, [I]` (R145): `V[k]` from `I + k` for k = 0..x. -/
def execLoadRegs (x : Reg) (s : State) : Host.Outcome State Fault Refusal :=
  .next (rangeChecked (.loadRegs x) (effectiveAddress s x.val) s
    ({ s with v := bulkLoaded x s }.setI (indexAfterBulk x s)).advance)

end Sys2Proof.Machine
end

