-- ==== Sys2Proof/Machine/KeypadTimers.lean ====
section
/-! DEFINITION. Keypad and timer instructions (44_keypad_timers.md R160 to R165). -/

namespace Sys2Proof.Machine

/-- `SKP Vx` (R160): skip if key `V[x]` is down, or `KEY_INDEX_OUT_OF_RANGE(V[x])`. -/
def execSkp (x : Reg) (s : State) : Host.Outcome State Fault Refusal :=
  match keyIndex x s with
  | none => .next (raiseAt .keyIndexOutOfRange (.skp x) (s.getV x).toNat s)
  | some k => .next (s.skipIf (s.keyDown k))

/-- `SKNP Vx` (R161): skip if key `V[x]` is up, or `KEY_INDEX_OUT_OF_RANGE(V[x])`. -/
def execSknp (x : Reg) (s : State) : Host.Outcome State Fault Refusal :=
  match keyIndex x s with
  | none => .next (raiseAt .keyIndexOutOfRange (.sknp x) (s.getV x).toNat s)
  | some k => .next (s.skipIf (!s.keyDown k))

/-- The key wait does not complete at this tick: no key is latched, or the latched one is still down (R162). -/
def keyWaitBlocked (s : State) : Bool :=
  match s.keyLatch with
  | none => true
  | some k => s.keyDown k

/-- `LD Vx, K` (R162): latch the lowest key down and retry; retry while it is held; on its release store its
number, clear the latch and go on. A retry leaves `PC` (R171). -/
def execLdVxK (x : Reg) (s : State) : Host.Outcome State Fault Refusal :=
  match s.keyLatch with
  | none => .next { s with keyLatch := lowestKeyDown s }
  | some k =>
    if keyWaitBlocked s then .next s
    else .next ({ s with keyLatch := none }.setV x (BitVec.ofNat 8 k.val)).advance

/-- `LD Vx, DT` (R163). -/
def execLdVxDT (x : Reg) (s : State) : Host.Outcome State Fault Refusal :=
  .next (s.setV x s.dt).advance

/-- `LD DT, Vx` (R164). -/
def execLdDTVx (x : Reg) (s : State) : Host.Outcome State Fault Refusal :=
  .next { s with dt := s.getV x }.advance

/-- `LD ST, Vx` (R165). -/
def execLdSTVx (x : Reg) (s : State) : Host.Outcome State Fault Refusal :=
  .next { s with st := s.getV x }.advance

end Sys2Proof.Machine
end

