-- ==== Sys2Proof/Machine/HostOps.lean ====
section
/-! DEFINITION. The host's operations and the outputs it reads (60_exceptions.md R180 to R187;
70_reset_and_hazards.md R200 to R203). In the FAULT state all but `init` change nothing (R185). -/

namespace Sys2Proof.Machine

/-- `init()` (R200): the created state, whatever the state before. The parameters stay (R7), the free
values go on, and the host's further calls are the host's own (log 8). -/
def hostInit (s : State) : State :=
  { State.created s.params s.freeIndex with hostCalls := s.hostCalls }

/-- The address a program is loaded at (00_scope.md R6 `LOAD_OFFSET`). -/
def loadOffset : Nat := 0x200

/-- The longest program (R6 `MAX_PROGRAM`). -/
def maxProgram : Nat := 3584

/-- Where `withFetchWord` puts the instruction: at `PC` where a loaded machine can fetch there, else at
the load offset. -/
def fetchAddress (s : State) : Nat :=
  if s.loaded ∧ s.pc.toNat + 1 ≤ topAddress then s.pc.toNat else loadOffset

/-- `raise LOAD_TOO_LARGE(L)`: no word was fetched, and `FAULT_PC` is unspecified, a free value (R173; log 5). -/
def raiseLoadTooLarge (len : Nat) (s : State) : State :=
  { raise .loadTooLarge 0 len s with
    faultPc := Config.loadFaultPc s.freeIndex, freeIndex := s.freeIndex + 1 }

/-- `load(p)` (R202, R203): only the copied bytes, `PC` and `LOADED` change. -/
def hostLoad (p : List Byte) (s : State) : State :=
  if s.fault then s
  else if maxProgram < p.length then raiseLoadTooLarge p.length s
  else { s.storeBytes loadOffset p with pc := BitVec.ofNat 16 loadOffset, loaded := true }

/-- `write_keys(s)` (R182): the snapshot is fully replaced. -/
def hostWriteKeys (snapshot : Vector Bool 16) (s : State) : State :=
  if s.fault then s else { s with keys := snapshot }

/-- A timer counts down by 1 and stays at 0 (R183). -/
def countDown (t : Byte) : Byte := if t = 0 then 0 else t - 1

/-- `advance_timers()` (R183). -/
def hostAdvanceTimers (s : State) : State :=
  if s.fault then s else { s with dt := countDown s.dt, st := countDown s.st }

/-- `set_vblank(b)` (R184). -/
def hostSetVblank (b : Bool) (s : State) : State :=
  if s.fault then s else { s with vblank := b }

/-- `framebuffer()` (R186): the 2048 cells of `FB` in index order. -/
def framebuffer (s : State) : List Bool :=
  (List.range 2048).map fun j => cellAt s.fb (j % 64) (j / 64)

/-- `sound_active()` (R187): `ST != 0` (D19; log 24). -/
def soundActive (s : State) : Bool := s.st != 0

/-- The status record the host may read at any time (10_state.md R34, R180). -/
structure StatusRecord where
  loaded    : Bool
  fault     : Bool
  faultCode : BitVec 3
  faultPc   : Word
  faultWord : Word
  faultInfo : Word
deriving DecidableEq, Repr

/-- The read of the status record (R34, R180). -/
def statusRecord (s : State) : StatusRecord :=
  ⟨s.loaded, s.fault, s.faultCode, s.faultPc, s.faultWord, s.faultInfo⟩

end Sys2Proof.Machine
end

