-- ==== Sys2Proof/Machine/Tick.lean ====
section
/-! DEFINITION. The tick and its outcome (60_exceptions.md R170 to R172, R175), and one call of the host. -/

namespace Sys2Proof.Machine

/-- A tick that is allowed: fetch, decode, execute, with the checks in the order of R175. -/
def fetchDecodeExecute (s : State) : Host.Outcome State Fault Refusal :=
  match s.fetch with
  | none => .next (raise .fetchOutOfRange 0 s.pc.toNat s)
  | some w =>
    match decodeWord w with
    | none => .next (raise .illegalInstruction w w.toNat s)
    | some i => exec i s

/-- `tick()` (R170): refused while `FAULT = 1` or `LOADED = 0` (R172), else one instruction. -/
def tick (s : State) : Host.Outcome State Fault Refusal :=
  if s.fault then .refused .tickFaulted
  else if s.loaded then fetchDecodeExecute s
  else .refused .tickNotLoaded

/-- `tick` as a call of the host: in the FAULT state it is refused and changes nothing, and the host's later calls
still come (R172, R185); before a load a run has no meaning (R172); log 1. -/
def hostTick (s : State) : Host.Outcome State Fault Refusal :=
  if s.fault then .next s else tick s

/-- One call of the host (R180). -/
def hostCall (c : HostCall) (s : State) : Host.Outcome State Fault Refusal :=
  match c with
  | .init => .next (hostInit s)
  | .load p => .next (hostLoad p s)
  | .tick => hostTick s
  | .writeKeys k => .next (hostWriteKeys k s)
  | .advanceTimers => .next (hostAdvanceTimers s)
  | .setVblank b => .next (hostSetVblank b s)

/-- The outcomes of R171. -/
inductive TickOutcome where
  | completed
  | retry
  | faulted
  | refused
deriving DecidableEq, Repr

/-- The instruction this state's tick would execute, where the fetch and the decode succeed. -/
def fetchedInstr (s : State) : Option Instr := s.fetch.bind decodeWord

/-- The instruction ends this tick in Retry: a blocked key wait or a gated draw (R152, R162, R171). -/
def retries (i : Instr) (s : State) : Bool :=
  match i with
  | .ldVxK _ => keyWaitBlocked s
  | .drw _ _ _ => drawGated s
  | _ => false

/-- The outcome of the tick taken in `s` (R171); log 31. -/
def tickOutcome (s : State) : TickOutcome :=
  match tick s with
  | .next t =>
    if t.fault then .faulted
    else if (fetchedInstr s).any (retries · s) then .retry
    else .completed
  | .fault _ => .faulted
  | .refused _ => .refused

end Sys2Proof.Machine
end

