-- ==== Sys2Proof/Machine/Step.lean ====
section
/-! DEFINITION. One step of the machine, and the state in which the next step runs a given instruction. -/

namespace Sys2Proof.Machine

/-- One step: the next call of the host where one is to come, else a tick (00_scope.md R8, D28; log 6). -/
def step (s : State) : Host.Outcome State Fault Refusal :=
  match s.hostCalls with
  | [] => tick s
  | c :: rest => hostCall c { s with hostCalls := rest }

/-- `s` with the instruction whose bits are `w` stored where the next step fetches it. It stands for a `load` of
the instruction where none has happened: the machine is loaded, not faulted, and no host call comes first; log 7. -/
def State.withFetchWord (s : State) (nbits w : Nat) : State :=
  { s.storeBytes (fetchAddress s) (wordBytes (BitVec.ofNat 16 (w % 2 ^ nbits))) with
    pc := BitVec.ofNat 16 (fetchAddress s), loaded := true, fault := false, hostCalls := [] }

end Sys2Proof.Machine
end

