-- ==== Sys2Proof/Safety.lean ====
section
/-! DEFINITION. What counts as a safe run, the invariant that rules out states no run reaches, and the
words the frame statements are made of. -/

namespace Sys2Proof.Machine

/-- A tick is allowed: a program is loaded and no fault has been raised (60_exceptions.md R180). -/
def State.running (s : State) : Bool := s.loaded && !s.fault

/-- `k` steps from `s` are all taken and none raises a fault: a safe run. A fault "is never a successful end of
a run" (R173, 70_reset_and_hazards.md R214). -/
def safeRun : Nat → State → Bool
  | 0, _ => true
  | k + 1, s =>
    match step s with
    | .next t => !t.fault && safeRun k t
    | .fault _ => false
    | .refused _ => false

/-- The idle loop by which a program conventionally ends: `PC = a and MEM[a..a+1] = 0x1000 + a` (R214, D29; log 34). -/
def State.idleAt (s : State) (a : Addr12) : Bool :=
  s.pc == BitVec.ofNat 16 a.toNat && s.fetch == some (BitVec.ofNat 16 (0x1000 + a.toNat))

/-- What the reachable states have in common. `pcReach` and `callSites` are the bounds of 10_state.md R24,
40_control_flow.md R101 and R108; `unloaded` is R204's all-zero state before the first load. -/
structure State.Coherent (s : State) : Prop where
  memory    : s.mem.wf s.params.font
  pcReach   : s.loaded = true → s.pc.toNat ≤ 0x10FE
  callSites : ∀ j : Fin 16, j.val < s.sp.val → s.stack[j].toNat ≤ 4094
  unfaulted : s.fault = false →
    s.faultCode = 0 ∧ s.faultPc = 0 ∧ s.faultWord = 0 ∧ s.faultInfo = 0
  faulted   : s.fault = true → s.faultCode ≠ 0
  unloaded  : s.loaded = false →
    s.mem = [] ∧ s.v = Vector.replicate 16 0 ∧ s.i = 0 ∧ s.sp = 0 ∧
    s.fb = Vector.replicate 32 0 ∧ s.dt = 0 ∧ s.st = 0 ∧ s.keyLatch = none

/-- `s` after `raise` with this code, word and info: the five writes of R173 and nothing else. -/
def State.faultedWith (s : State) (code : BitVec 3) (word info : Word) : State :=
  { s with fault := true, faultCode := code, faultPc := s.pc, faultWord := word, faultInfo := info }

/-! ### What an instruction may write -/

/-- The general registers an instruction writes (10_state.md R20, R21): its destination, VF for the six that
report a flag, `V[0]..V[x]` for the bulk load. -/
def writtenRegs : Instr → List Reg
  | .ldImm x _ | .addImm x _ | .ldReg x _ | .orReg x _ | .andReg x _ | .xorReg x _ => [x]
  | .addReg x _ | .subReg x _ | .shr x _ | .subn x _ | .shl x _ => [x, VF]
  | .rnd x _ | .ldVxDT x | .ldVxK x => [x]
  | .drw _ _ _ => [VF]
  | .loadRegs x => (List.finRange 16).filter (· ≤ x)
  | .cls | .ret | .jp _ | .call _ | .seImm _ _ | .sneImm _ _ | .seReg _ _ | .sneReg _ _ | .ldI _ | .jpV0 _ => []
  | .skp _ | .sknp _ | .ldDTVx _ | .ldSTVx _ | .addI _ | .ldF _ | .ldB _ | .storeRegs _ => []

/-- How many bytes an instruction stores, from `I` up: three digits (R143), `x + 1` registers (R144), else none. -/
def storedLength : Instr → Nat
  | .ldB _ => 3
  | .storeRegs x => x.val + 1
  | .cls | .ret | .jp _ | .call _ | .seImm _ _ | .sneImm _ _ | .seReg _ _ | .sneReg _ _ | .ldI _ | .jpV0 _ => 0
  | .ldImm _ _ | .addImm _ _ | .ldReg _ _ | .orReg _ _ | .andReg _ _ | .xorReg _ _ => 0
  | .addReg _ _ | .subReg _ _ | .shr _ _ | .subn _ _ | .shl _ _ | .rnd _ _ | .drw _ _ _ => 0
  | .skp _ | .sknp _ | .ldVxDT _ | .ldVxK _ | .ldDTVx _ | .ldSTVx _ | .addI _ | .ldF _ | .loadRegs _ => 0

/-- Whether an instruction writes `I` (R22): the three that set it, and the bulk transfers in LEGACY. -/
def writesIndex (p : Params) : Instr → Bool
  | .ldI _ | .addI _ | .ldF _ => true
  | .storeRegs _ | .loadRegs _ => p.compat == .legacy
  | .cls | .ret | .jp _ | .call _ | .seImm _ _ | .sneImm _ _ | .seReg _ _ | .sneReg _ _ | .jpV0 _ => false
  | .ldImm _ _ | .addImm _ _ | .ldReg _ _ | .orReg _ _ | .andReg _ _ | .xorReg _ _ => false
  | .addReg _ _ | .subReg _ _ | .shr _ _ | .subn _ _ | .shl _ _ | .rnd _ _ | .drw _ _ _ => false
  | .skp _ | .sknp _ | .ldVxDT _ | .ldVxK _ | .ldDTVx _ | .ldSTVx _ | .ldB _ => false

/-- The set S of 43_display.md R153: the cell of column `cx` and row `cy` is on the screen and lies under a 1 bit of
the sprite of `n` rows from `I` that starts at (`V[x]` mod 64, `V[y]` mod 32). -/
def State.spriteCovers (s : State) (x y : Reg) (n cx cy : Nat) : Prop :=
  ∃ r c : Nat, r < n ∧ c ≤ 7 ∧ cy = (s.getV y).toNat % 32 + r ∧ cx = (s.getV x).toNat % 64 + c ∧
    cy ≤ 31 ∧ cx ≤ 63 ∧ (s.readByte (s.i.toNat + r)).getLsbD (7 - c) = true

/-! ### Frames -/

/-- Every general register but those of `ds` reads as before. -/
def sameRegsExcept (ds : List Reg) (s t : State) : Prop := ∀ r : Reg, r ∉ ds → t.getV r = s.getV r

/-- Every byte of memory outside the `n` bytes from `a` reads as before. -/
def sameMemoryExcept (a n : Nat) (s t : State) : Prop :=
  ∀ b : Nat, (b < a ∨ a + n ≤ b) → t.readByte b = s.readByte b

/-- The status record is as before (10_state.md R34). -/
def sameStatus (s t : State) : Prop := statusRecord t = statusRecord s

/-- The parameters and the host's further calls are as before. -/
def sameSetting (s t : State) : Prop := t.params = s.params ∧ t.hostCalls = s.hostCalls

end Sys2Proof.Machine
end

