-- ==== Sys2Proof/Certificates/Slice0/Obligations.lean ====
section
/-! DEFINITION. The statements for the provers, file by file of the spec. Each docstring names the rule it
formalises, and where it rests on a choice the spec marks as its own, the decision or the log entry. -/

open Sys2Proof Sys2Proof.Machine

/-! ### Encoding (30_encoding.md) -/

/-- R74, D3 (log 9): a word of every family, written out from its pattern, decodes to its instruction. -/
def Obligations.DecodesWordsOfTheOpcodeMap : Prop :=
  decodeWord 0x00E0#16 = some .cls ∧ decodeWord 0x00EE#16 = some .ret ∧
  decodeWord 0x1234#16 = some (.jp 0x234) ∧ decodeWord 0x2300#16 = some (.call 0x300) ∧
  decodeWord 0x332A#16 = some (.seImm 3 0x2A) ∧ decodeWord 0x4BFE#16 = some (.sneImm 11 0xFE) ∧
  decodeWord 0x5120#16 = some (.seReg 1 2) ∧ decodeWord 0x6A2F#16 = some (.ldImm 10 0x2F) ∧
  decodeWord 0x70FF#16 = some (.addImm 0 0xFF) ∧ decodeWord 0x8017#16 = some (.subn 0 1) ∧
  decodeWord 0x9AB0#16 = some (.sneReg 10 11) ∧ decodeWord 0xA2F0#16 = some (.ldI 0x2F0) ∧
  decodeWord 0xBFFF#16 = some (.jpV0 0xFFF) ∧ decodeWord 0xC1F0#16 = some (.rnd 1 0xF0) ∧
  decodeWord 0xD125#16 = some (.drw 1 2 5) ∧ decodeWord 0xE2A1#16 = some (.sknp 2) ∧
  decodeWord 0xF30A#16 = some (.ldVxK 3) ∧ decodeWord 0xF255#16 = some (.storeRegs 2) ∧
  decodeWord 0x0000#16 = none ∧ decodeWord 0x5121#16 = none ∧ decodeWord 0x8018#16 = none

/-- R70, R71, R74 (log 9): decoding the encoding of any well-formed instruction gives it back, as a word and as the
head of a byte stream. -/
def Obligations.DecodeOfEncodeIsTheInstruction : Prop :=
  ∀ i : Instr, i.WellFormed →
    decodeWord (encode i) = some i ∧
    ∀ rest : List Byte, decode (encodeBytes i ++ rest) = .ok (i, rest)

/-- R73, R74 (log 9): a word that decodes is the encoding of what it decodes to, which is well formed. -/
def Obligations.EncodeOfDecodeIsTheWord : Prop :=
  ∀ (w : Word) (i : Instr), decodeWord w = some i → i.WellFormed ∧ encode i = w

/-- R73 (log 9): the dispatch on nibbles is the map's "first row of rule R74 for which `w and mask = match`". -/
def Obligations.DecoderAgreesWithTheOpcodeMap : Prop := ∀ w : Word, decodeWord w = decodeByMap w

/-- R73 "no two rows overlap" (log 9): no word matches two rows of the opcode map. -/
def Obligations.OpcodeRowsDoNotOverlap : Prop :=
  opcodeMap.Pairwise fun r q => ∀ w : Word, ¬ (w &&& r.mask = r.value ∧ w &&& q.mask = q.value)

/-- R76, R77 (D9, D10; log 10): the illegal words, family by family. -/
def Obligations.IllegalWordsAreThoseOfTheTable : Prop :=
  ∀ w : Word, decodeWord w = none ↔
    (fieldOp w = 0x0#4 ∧ w ≠ 0x00E0#16 ∧ w ≠ 0x00EE#16) ∨
    (fieldOp w = 0x5#4 ∧ fieldN w ≠ 0x0#4) ∨
    (fieldOp w = 0x8#4 ∧ fieldN w ∈ [0x8#4, 0x9#4, 0xA#4, 0xB#4, 0xC#4, 0xD#4, 0xF#4]) ∨
    (fieldOp w = 0x9#4 ∧ fieldN w ≠ 0x0#4) ∨
    (fieldOp w = 0xE#4 ∧ fieldNN w ∉ [0x9E#8, 0xA1#8]) ∨
    (fieldOp w = 0xF#4 ∧
      fieldNN w ∉ [0x07#8, 0x0A#8, 0x15#8, 0x18#8, 0x1E#8, 0x29#8, 0x33#8, 0x55#8, 0x65#8])

/-! ### The tick (60_exceptions.md) -/

/-- R54, R170 (log 6): on a running machine whose two bytes at `PC` make a legal word, the step is `exec` of the decoded
instruction, at this state where no host call is to come, and without the call where it is `tick`. -/
def Obligations.StepRunsTheDecodedInstruction : Prop :=
  ∀ (s : State) (w : Word) (i : Instr),
    s.loaded = true → s.fault = false → s.pc.toNat ≤ 4094 →
    w.toNat = (s.readByte s.pc.toNat).toNat * 256 + (s.readByte (s.pc.toNat + 1)).toNat →
    decodeWord w = some i →
    (s.hostCalls = [] → step s = exec i s) ∧
    (∀ rest, s.hostCalls = .tick :: rest → step s = exec i { s with hostCalls := rest })

/-- R8, R180 (D28; log 6): a step is a tick where no host call is to come, else the first host call on the state without
it. -/
def Obligations.StepPerformsTheNextHostCall : Prop :=
  ∀ s : State,
    (s.hostCalls = [] → step s = tick s) ∧
    (∀ c rest, s.hostCalls = c :: rest → step s = hostCall c { s with hostCalls := rest })

/-- R54, R174 code 5, D6 (log 17): a running machine at `PC >= 4095` faults before it reads; nothing wraps. The step is the
model's own tick where no host call is to come, else the host's call of `tick` (log 6). -/
def Obligations.FetchBeyondMemoryFaults : Prop :=
  ∀ s : State, s.loaded = true → s.fault = false → 4095 ≤ s.pc.toNat →
    (s.hostCalls = [] → step s = .next (s.faultedWith 5 0 s.pc)) ∧
    (∀ rest, s.hostCalls = .tick :: rest →
      step s = .next { s.faultedWith 5 0 s.pc with hostCalls := rest })

/-- R77, R174 code 2 (D8, log 19): an illegal word faults with that word as the diagnostic, in the model's own tick as in
the host's call of `tick` (log 6). -/
def Obligations.IllegalWordFaultsWithItself : Prop :=
  ∀ (s : State) (w : Word), s.loaded = true → s.fault = false → s.pc.toNat ≤ 4094 →
    w.toNat = (s.readByte s.pc.toNat).toNat * 256 + (s.readByte (s.pc.toNat + 1)).toNat →
    decodeWord w = none →
    (s.hostCalls = [] → step s = .next (s.faultedWith 2 w w)) ∧
    (∀ rest, s.hostCalls = .tick :: rest → step s = .next { s.faultedWith 2 w w with hostCalls := rest })

/-- R170, R172 (D8, D17; log 1): a tick is refused exactly in the FAULT state and before a load. The host's call of `tick` is
refused exactly before a load; in the FAULT state it changes nothing (R185), and on a running machine it is the tick. -/
def Obligations.TicksAreRefusedWhenNotRunning : Prop :=
  ∀ s : State,
    (tick s = .refused .tickFaulted ↔ s.fault = true) ∧
    (tick s = .refused .tickNotLoaded ↔ s.fault = false ∧ s.loaded = false) ∧
    (s.running = true ↔ ∃ t, tick s = .next t) ∧
    (hostCall .tick s = .refused .tickNotLoaded ↔ s.fault = false ∧ s.loaded = false) ∧
    (s.fault = true → hostCall .tick s = .next s) ∧
    (s.running = true → hostCall .tick s = tick s)

/-- R171 (log 31): "Only two instructions can end in Retry": a blocked key wait, or a draw at a closed gate. -/
def Obligations.RetryIsKeyWaitOrGatedDraw : Prop :=
  ∀ s : State, tickOutcome s = .retry ↔
    s.running = true ∧
    ((∃ x, fetchedInstr s = some (.ldVxK x) ∧ ∀ k, s.keyLatch = some k → s.keys[k] = true) ∨
     (∃ x y n, fetchedInstr s = some (.drw x y n) ∧ s.params.vsyncGating = true ∧ s.vblank = false))

/-- R171, Retry: "PC unchanged; only `LD Vx, K` may change anything (it may set `KEYLATCH`)". -/
def Obligations.RetryChangesAtMostTheLatch : Prop :=
  ∀ s : State, tickOutcome s = .retry →
    ∃ latch, tick s = .next { s with keyLatch := latch } ∧
      (latch = s.keyLatch ∨ ∃ x, fetchedInstr s = some (.ldVxK x))

/-- R173, R174, R175 (D8; log 19, log 30): a tick that raises a fault writes the status record and nothing else, with the
fetched word, or 0 where the fetch itself faulted. -/
def Obligations.FaultsArePreciseInATick : Prop :=
  ∀ s t : State, tick s = .next t → t.fault = true →
    ∃ (c : FaultCause) (word info : Word), t = s.faultedWith (codeOf c) word info ∧
      ((s.fetch = none ∧ word = 0 ∧ c = .fetchOutOfRange) ∨ s.fetch = some word)

/-- R173, R177, R185 (D8; log 1, log 19): in the FAULT state a step takes the next host call; all but `init`, a refused
`tick` among them, change nothing, and only `init` leaves the state. Without a host call the step is refused. -/
def Obligations.FaultStateIsStickyUntilInit : Prop :=
  ∀ s : State, s.fault = true →
    (s.hostCalls = [] → step s = .refused .tickFaulted) ∧
    (∀ c rest, s.hostCalls = c :: rest → c ≠ .init → step s = .next { s with hostCalls := rest }) ∧
    (∀ rest, s.hostCalls = .init :: rest → ∃ t, step s = .next t ∧ t.fault = false ∧ t.hostCalls = rest)

/-- R170: a tick touches no timer, no key and no parameter; the timers only where it executes the instruction that sets
them. -/
def Obligations.TickLeavesTimersAndKeys : Prop :=
  ∀ s t : State, tick s = .next t →
    t.keys = s.keys ∧ t.params = s.params ∧ t.loaded = s.loaded ∧ t.hostCalls = s.hostCalls ∧
    (t.dt = s.dt ∨ ∃ x, fetchedInstr s = some (.ldDTVx x) ∧ t.dt = s.getV x) ∧
    (t.st = s.st ∨ ∃ x, fetchedInstr s = some (.ldSTVx x) ∧ t.st = s.getV x)

/-- R7: the construction-time parameters "do not change while the machine exists", whatever the step. -/
def Obligations.ParametersNeverChange : Prop :=
  ∀ s t : State, step s = .next t → t.params = s.params

/-! ### Control transfer (40_control_flow.md) -/

/-- R102. -/
def Obligations.JumpGoesToItsAddress : Prop :=
  ∀ (nnn : Addr12) (s : State), exec (.jp nnn) s = .next { s with pc := nnn.setWidth 16 }

/-- R103 (D4, D5; log 15, log 16): `CALL` pushes its own address; with a full stack it faults with code 3. -/
def Obligations.CallPushesItsOwnAddress : Prop :=
  ∀ (nnn : Addr12) (s : State),
    (∀ h : s.sp.val < 16, exec (.call nnn) s =
      .next { s with stack := s.stack.set s.sp.val s.pc h, sp := ⟨s.sp.val + 1, Nat.succ_lt_succ h⟩,
                     pc := nnn.setWidth 16 }) ∧
    (s.sp.val = 16 → exec (.call nnn) s = .next (s.faultedWith 3 (encode (.call nnn)) s.pc))

/-- R101 (D4, D5; log 15, log 16): `RET` goes 2 past the popped call site and keeps the slot; with an empty stack it
faults with code 4. -/
def Obligations.ReturnGoesPastTheCallSite : Prop :=
  ∀ s : State,
    (∀ (j : Fin 16) (sp' : Fin 17), s.sp.val = j.val + 1 → sp'.val = j.val →
      exec .ret s = .next { s with sp := sp', pc := s.stack[j] + 2 }) ∧
    (s.sp.val = 0 → exec .ret s = .next (s.faultedWith 4 0x00EE#16 s.pc))

/-- The source's property in R101: a return that finds the stack the call left goes to the instruction after the call and
restores the depth. -/
def Obligations.CallThenReturnComesBack : Prop :=
  ∀ (nnn : Addr12) (s : State), s.sp.val < 16 →
    ∃ t, exec (.call nnn) s = .next t ∧
      ∀ u : State, u.stack = t.stack → u.sp = t.sp →
        ∃ r, exec .ret u = .next r ∧ r.pc = s.pc + 2 ∧ r.sp = s.sp

/-- R104, R105. -/
def Obligations.ImmediateSkips : Prop :=
  ∀ (x : Reg) (nn : Byte) (s : State),
    exec (.seImm x nn) s = .next { s with pc := if s.v[x] = nn then s.pc + 4 else s.pc + 2 } ∧
    exec (.sneImm x nn) s = .next { s with pc := if s.v[x] ≠ nn then s.pc + 4 else s.pc + 2 }

/-- R106, R107. -/
def Obligations.RegisterSkips : Prop :=
  ∀ (x y : Reg) (s : State),
    exec (.seReg x y) s = .next { s with pc := if s.v[x] = s.v[y] then s.pc + 4 else s.pc + 2 } ∧
    exec (.sneReg x y) s = .next { s with pc := if s.v[x] ≠ s.v[y] then s.pc + 4 else s.pc + 2 }

/-- R108: the sum of the address and `V[0]`, not reduced mod 4096 (which R108 marks as derived). -/
def Obligations.OffsetJumpAddsV0 : Prop :=
  ∀ (nnn : Addr12) (s : State), ∃ t, exec (.jpV0 nnn) s = .next t ∧
    t = { s with pc := t.pc } ∧ t.pc.toNat = nnn.toNat + s.v[(0 : Reg)].toNat

/-! ### Arithmetic and logic (41_alu.md) -/

/-- R120, R121: `ADD Vx, nn` wraps and writes no flag. -/
def Obligations.LoadAndAddImmediate : Prop :=
  ∀ (x : Reg) (nn : Byte) (s : State),
    exec (.ldImm x nn) s = .next { s with v := s.v.set x nn, pc := s.pc + 2 } ∧
    exec (.addImm x nn) s = .next { s with v := s.v.set x (s.v[x] + nn), pc := s.pc + 2 }

/-- R123 to R126: VF is written only as the destination. -/
def Obligations.MoveAndLogic : Prop :=
  ∀ (x y : Reg) (s : State),
    exec (.ldReg x y) s = .next { s with v := s.v.set x s.v[y], pc := s.pc + 2 } ∧
    exec (.orReg x y) s = .next { s with v := s.v.set x (s.v[x] ||| s.v[y]), pc := s.pc + 2 } ∧
    exec (.andReg x y) s = .next { s with v := s.v.set x (s.v[x] &&& s.v[y]), pc := s.pc + 2 } ∧
    exec (.xorReg x y) s = .next { s with v := s.v.set x (s.v[x] ^^^ s.v[y]), pc := s.pc + 2 }

/-- R127; that VF keeps the carry where x = 15 is D11 (log 20). -/
def Obligations.AddReportsCarry : Prop :=
  ∀ (x y : Reg) (s : State), exec (.addReg x y) s =
    .next { s with v := (s.v.set x (s.v[x] + s.v[y])).set VF (if 255 < s.v[x].toNat + s.v[y].toNat then 1 else 0),
                   pc := s.pc + 2 }

/-- R128, R130: VF is 1 exactly when minuend >= subtrahend; that VF keeps the flag where x = 15 is D11 (log 20). -/
def Obligations.SubtractReportsNotBorrow : Prop :=
  ∀ (x y : Reg) (s : State),
    exec (.subReg x y) s =
      .next { s with v := (s.v.set x (s.v[x] - s.v[y])).set VF (if s.v[y] ≤ s.v[x] then 1 else 0),
                     pc := s.pc + 2 } ∧
    exec (.subn x y) s =
      .next { s with v := (s.v.set x (s.v[y] - s.v[x])).set VF (if s.v[x] ≤ s.v[y] then 1 else 0),
                     pc := s.pc + 2 }

/-- R129, R131: the operand by `COMPAT`, the bit shifted out in VF; the order where x = 15 is D11 (log 20). -/
def Obligations.ShiftsReportTheBitShiftedOut : Prop :=
  ∀ (x y : Reg) (s : State) (src : Byte),
    src = (if s.params.compat = .legacy then s.v[y] else s.v[x]) →
    exec (.shr x y) s =
      .next { s with v := (s.v.set x (src >>> 1)).set VF (if src.getLsbD 0 then 1 else 0), pc := s.pc + 2 } ∧
    exec (.shl x y) s =
      .next { s with v := (s.v.set x (src <<< 1)).set VF (if src.getLsbD 7 then 1 else 0), pc := s.pc + 2 }

/-- R132 (D20; log 3): some byte, masked; whatever the draw, no bit outside `nn` is set. The model's counter of free values
goes on. -/
def Obligations.RandomIsMasked : Prop :=
  ∀ (x : Reg) (nn : Byte) (s : State), ∃ r : Byte,
    exec (.rnd x nn) s =
      .next { s with v := s.v.set x (r &&& nn), pc := s.pc + 2, freeIndex := s.freeIndex + 1 } ∧
    ∀ b : Nat, nn.getLsbD b = false → (r &&& nn).getLsbD b = false

/-! ### Index register and memory (42_index_memory.md) -/

/-- R140, R141, R142. -/
def Obligations.IndexRegisterWrites : Prop :=
  (∀ (nnn : Addr12) (s : State), exec (.ldI nnn) s = .next { s with i := nnn.setWidth 16, pc := s.pc + 2 }) ∧
  (∀ (x : Reg) (s : State),
    exec (.addI x) s = .next { s with i := s.i + s.v[x].setWidth 16, pc := s.pc + 2 }) ∧
  (∀ (x : Reg) (s : State), exec (.ldF x) s = .next { s with i := s.v[x].setWidth 16 * 5, pc := s.pc + 2 })

/-- R143; the fault is D6 (log 17): hundreds, tens and units at `I`, `I + 1`, `I + 2`, or code 6 and no byte written. -/
def Obligations.BcdStoreWritesThreeDigits : Prop :=
  ∀ (x : Reg) (s : State), s.mem.wf s.params.font →
    (s.i.toNat + 2 ≤ 4095 →
      ∃ t, exec (.ldB x) s = .next t ∧ t = { s with mem := t.mem, pc := s.pc + 2 } ∧
        (t.readByte s.i.toNat).toNat = s.v[x].toNat / 100 ∧
        (t.readByte (s.i.toNat + 1)).toNat = s.v[x].toNat / 10 % 10 ∧
        (t.readByte (s.i.toNat + 2)).toNat = s.v[x].toNat % 10 ∧
        sameMemoryExcept (effectiveAddress s 0) 3 s t) ∧
    (4095 < s.i.toNat + 2 →
      exec (.ldB x) s = .next (s.faultedWith 6 (encode (.ldB x)) (saturate16 (s.i.toNat + 2))))

/-- R144; the fault is D6 (log 17), the names of the modes are the spec's (D26). -/
def Obligations.BulkStoreWritesTheRegisters : Prop :=
  ∀ (x : Reg) (s : State), s.mem.wf s.params.font →
    (s.i.toNat + x.val ≤ 4095 →
      ∃ t, exec (.storeRegs x) s = .next t ∧
        t = { s with mem := t.mem, pc := s.pc + 2,
                     i := if s.params.compat = .legacy then s.i + BitVec.ofNat 16 (x.val + 1) else s.i } ∧
        (∀ k : Reg, k ≤ x → t.readByte (s.i.toNat + k.val) = s.v[k]) ∧
        sameMemoryExcept (effectiveAddress s 0) (x.val + 1) s t) ∧
    (4095 < s.i.toNat + x.val →
      exec (.storeRegs x) s =
        .next (s.faultedWith 6 (encode (.storeRegs x)) (saturate16 (s.i.toNat + x.val))))

/-- R145; the fault is D6 (log 17), the names of the modes are the spec's (D26). -/
def Obligations.BulkLoadReadsTheRegisters : Prop :=
  ∀ (x : Reg) (s : State),
    (s.i.toNat + x.val ≤ 4095 →
      ∃ t, exec (.loadRegs x) s = .next t ∧
        t = { s with v := t.v, pc := s.pc + 2,
                     i := if s.params.compat = .legacy then s.i + BitVec.ofNat 16 (x.val + 1) else s.i } ∧
        (∀ k : Reg, k ≤ x → t.v[k] = s.readByte (s.i.toNat + k.val)) ∧
        (∀ k : Reg, x < k → t.v[k] = s.v[k])) ∧
    (4095 < s.i.toNat + x.val →
      exec (.loadRegs x) s =
        .next (s.faultedWith 6 (encode (.loadRegs x)) (saturate16 (s.i.toNat + x.val))))

/-- The round-trip law of R145, in either `COMPAT` mode: a bulk load from the base address of a bulk store, over the memory
it left, gives the stored registers back whatever stands in them. -/
def Obligations.BulkStoreThenLoadGivesRegistersBack : Prop :=
  ∀ (x : Reg) (s : State), s.mem.wf s.params.font → s.i.toNat + x.val ≤ 4095 →
    ∃ t, exec (.storeRegs x) s = .next t ∧
      ∀ u : State, u.mem = t.mem → u.params = t.params → u.i = s.i →
        ∃ r, exec (.loadRegs x) u = .next r ∧ ∀ k : Reg, k ≤ x → r.v[k] = s.v[k]

/-! ### Display (43_display.md) -/

/-- R150: every cell is 0 afterwards, and only `FB` and `PC` change, in either variant. -/
def Obligations.ClearScreenZeroesEveryCell : Prop :=
  ∀ s : State, ∃ t, exec .cls s = .next t ∧ t = { s with fb := t.fb, pc := s.pc + 2 } ∧
    ∀ cx cy : Nat, cellAt t.fb cx cy = false

/-- R151, R152, R153 (D12, D15, D22; log 13, log 22, log 25): with the gate open and the sprite in range, exactly the cells of S
are flipped, VF is 1 if one of them was set, and `VBLANK` is cleared where the draw is gated at all. -/
def Obligations.DrawFlipsTheSpriteAndReportsCollision : Prop :=
  ∀ (x y : Reg) (n : Nat) (s : State),
    (s.params.vsyncGating = true → s.vblank = true) → (n = 0 ∨ s.i.toNat + (n - 1) ≤ 4095) →
    ∃ t, exec (.drw x y n) s = .next t ∧
      t = { s with fb := t.fb, v := s.v.set VF t.v[VF], pc := s.pc + 2,
                   vblank := if s.params.vsyncGating then false else s.vblank } ∧
      (∀ cx cy : Nat, cx < 64 → cy < 32 →
        (s.spriteCovers x y n cx cy → cellAt t.fb cx cy = !cellAt s.fb cx cy) ∧
        (¬ s.spriteCovers x y n cx cy → cellAt t.fb cx cy = cellAt s.fb cx cy)) ∧
      ((∃ cx cy, s.spriteCovers x y n cx cy ∧ cellAt s.fb cx cy = true) → t.v[VF] = 1) ∧
      ((¬ ∃ cx cy, s.spriteCovers x y n cx cy ∧ cellAt s.fb cx cy = true) → t.v[VF] = 0)

/-- R152, R151 (D15, D22, D27; log 22, log 25, log 29): at a closed gate nothing changes, even with the sprite out of range;
with the gate open a sprite out of range faults with code 6. -/
def Obligations.DrawRetriesAtTheGateOrFaults : Prop :=
  ∀ (x y : Reg) (n : Nat) (s : State),
    (s.params.vsyncGating = true ∧ s.vblank = false → exec (.drw x y n) s = .next s) ∧
    ((s.params.vsyncGating = true → s.vblank = true) → 0 < n → 4095 < s.i.toNat + (n - 1) →
      exec (.drw x y n) s =
        .next (s.faultedWith 6 (encode (.drw x y n)) (saturate16 (s.i.toNat + (n - 1)))))

/-- R151's corner case: "Drawing the same sprite twice at the same place restores `FB`". The second draw reports a collision
exactly where the first set a cell: R151's own words "if the sprite has any visible 1 bit" hold only where a cell under
the sprite was 0 before (log 35). -/
def Obligations.DrawingTwiceRestoresTheScreen : Prop :=
  ∀ (x y : Reg) (n : Nat) (s : State),
    (s.params.vsyncGating = true → s.vblank = true) → (n = 0 ∨ s.i.toNat + (n - 1) ≤ 4095) →
    ∃ t, exec (.drw x y n) s = .next t ∧
      ∀ u : State, u.fb = t.fb → u.mem = s.mem → u.params = s.params → u.i = s.i → u.v[x] = s.v[x] → u.v[y] = s.v[y] →
        (u.params.vsyncGating = true → u.vblank = true) →
        ∃ r, exec (.drw x y n) u = .next r ∧ r.fb = s.fb ∧
          ((∃ cx cy, s.spriteCovers x y n cx cy ∧ cellAt s.fb cx cy = false) → r.v[VF] = 1) ∧
          ((¬ ∃ cx cy, s.spriteCovers x y n cx cy ∧ cellAt s.fb cx cy = false) → r.v[VF] = 0)

/-! ### Keypad and timers (44_keypad_timers.md) -/

/-- R160, R161; the fault is D7 (log 18). -/
def Obligations.KeySkips : Prop :=
  ∀ (x : Reg) (s : State),
    (∀ k : Fin 16, s.v[x].toNat = k.val →
      exec (.skp x) s = .next { s with pc := if s.keys[k] = true then s.pc + 4 else s.pc + 2 } ∧
      exec (.sknp x) s = .next { s with pc := if s.keys[k] = false then s.pc + 4 else s.pc + 2 }) ∧
    (15 < s.v[x].toNat →
      exec (.skp x) s = .next (s.faultedWith 7 (encode (.skp x)) (s.v[x].setWidth 16)) ∧
      exec (.sknp x) s = .next (s.faultedWith 7 (encode (.sknp x)) (s.v[x].setWidth 16)))

/-- R162; that the lowest key is latched is D14 (log 21): no key down, nothing changes; a key down, the lowest is latched; the
latched key held, nothing changes; released, its number is stored and the wait is over. -/
def Obligations.KeyWaitLatchesAndCompletes : Prop :=
  ∀ (x : Reg) (s : State),
    (s.keyLatch = none → (∀ k : Fin 16, s.keys[k] = false) → exec (.ldVxK x) s = .next s) ∧
    (s.keyLatch = none → ∀ k : Fin 16, s.keys[k] = true → (∀ j : Fin 16, j < k → s.keys[j] = false) →
      exec (.ldVxK x) s = .next { s with keyLatch := some k }) ∧
    (∀ k : Fin 16, s.keyLatch = some k → s.keys[k] = true → exec (.ldVxK x) s = .next s) ∧
    (∀ k : Fin 16, s.keyLatch = some k → s.keys[k] = false →
      exec (.ldVxK x) s =
        .next { s with v := s.v.set x (BitVec.ofNat 8 k.val), keyLatch := none, pc := s.pc + 2 })

/-- R163, R164, R165. -/
def Obligations.TimerReadsAndWrites : Prop :=
  ∀ (x : Reg) (s : State),
    exec (.ldVxDT x) s = .next { s with v := s.v.set x s.dt, pc := s.pc + 2 } ∧
    exec (.ldDTVx x) s = .next { s with dt := s.v[x], pc := s.pc + 2 } ∧
    exec (.ldSTVx x) s = .next { s with st := s.v[x], pc := s.pc + 2 }

/-! ### Frames over all 34 instructions (10_state.md, R11) -/

/-- No instruction is refused or stops the machine: each answers a next state on every state. -/
def Obligations.EveryInstructionAnswersANextState : Prop :=
  ∀ (i : Instr) (s : State), ∃ t, exec i s = .next t

/-- R20, R21: a register that is not among those the rules name for the instruction keeps its value; VF among them. -/
def Obligations.OnlyNamedRegistersAreWritten : Prop :=
  ∀ (i : Instr) (s t : State), exec i s = .next t → sameRegsExcept (writtenRegs i) s t

/-- R50, R51, R52: only `LD B` and the bulk store write memory, and only their own bytes from `I` up. -/
def Obligations.OnlyTheStoredBytesAreWritten : Prop :=
  ∀ (i : Instr) (s t : State), exec i s = .next t →
    sameMemoryExcept (effectiveAddress s 0) (storedLength i) s t

/-- R22: the instructions that may write `I`. -/
def Obligations.OnlyIndexInstructionsWriteIndex : Prop :=
  ∀ (i : Instr) (s t : State), exec i s = .next t → writesIndex s.params i = false → t.i = s.i

/-- R26, R27: "Only `CALL` pushes and only `RET` pops"; a `CALL` writes at most the slot at `SP`, a `RET` no slot. -/
def Obligations.OnlyCallAndReturnTouchTheStack : Prop :=
  ∀ (i : Instr) (s t : State), exec i s = .next t →
    (∀ j : Fin 16, t.stack[j] = s.stack[j] ∨ (∃ nnn, i = .call nnn) ∧ j.val = s.sp.val) ∧
    (t.sp = s.sp ∨ (∃ nnn, i = .call nnn) ∧ t.sp.val = s.sp.val + 1 ∨ i = .ret ∧ t.sp.val + 1 = s.sp.val)

/-- R29, R30, R32, R33: the framebuffer, the timers, the key latch and the frame signal change only by the instructions their
rules name. -/
def Obligations.OnlyNamedInstructionsTouchDevices : Prop :=
  ∀ (i : Instr) (s t : State), exec i s = .next t →
    (t.fb = s.fb ∨ i = .cls ∨ ∃ x y n, i = .drw x y n) ∧
    (t.vblank = s.vblank ∨ ∃ x y n, i = .drw x y n) ∧
    (t.dt = s.dt ∨ ∃ x, i = .ldDTVx x) ∧
    (t.st = s.st ∨ ∃ x, i = .ldSTVx x) ∧
    (t.keyLatch = s.keyLatch ∨ ∃ x, i = .ldVxK x)

/-- R31, R34, R7: no instruction writes the key snapshot, `LOADED`, the parameters or the host's calls; the model's counter of
free values goes on only at `RND` (log 3, log 6). -/
def Obligations.InstructionsLeaveHostStateAlone : Prop :=
  ∀ (i : Instr) (s t : State), exec i s = .next t →
    t.keys = s.keys ∧ t.loaded = s.loaded ∧ sameSetting s t ∧
    (t.freeIndex = s.freeIndex ∨ ∃ x nn, i = .rnd x nn)

/-- R173, R174, R175 (D5 to D8, D22, D27; log 16 to 19, 25, 29): an instruction leaves the status record alone, or raises its
one own fault on the condition of its own check and changes nothing but the record. -/
def Obligations.InstructionsFaultOnlyByTheirOwnCheck : Prop :=
  ∀ (i : Instr) (s t : State), exec i s = .next t →
    sameStatus s t ∨
    (∃ nnn, i = .call nnn) ∧ s.sp.val = 16 ∧ t = s.faultedWith 3 (encode i) s.pc ∨
    i = .ret ∧ s.sp.val = 0 ∧ t = s.faultedWith 4 (encode i) s.pc ∨
    (∃ x y n, i = .drw x y n ∧ (s.params.vsyncGating = true → s.vblank = true) ∧ 0 < n ∧ 4095 < effectiveAddress s (n - 1) ∧
      t = s.faultedWith 6 (encode i) (saturate16 (effectiveAddress s (n - 1)))) ∨
    (∃ x, i = .ldB x ∧ 4095 < effectiveAddress s 2 ∧
      t = s.faultedWith 6 (encode i) (saturate16 (effectiveAddress s 2))) ∨
    (∃ x, (i = .storeRegs x ∨ i = .loadRegs x) ∧ 4095 < effectiveAddress s x.val ∧
      t = s.faultedWith 6 (encode i) (saturate16 (effectiveAddress s x.val))) ∨
    (∃ x, (i = .skp x ∨ i = .sknp x) ∧ 15 < (s.getV x).toNat ∧
      t = s.faultedWith 7 (encode i) ((s.getV x).setWidth 16))

/-! ### Memory (20_memory.md) -/

/-- Two canonical memories that read alike at every address are equal data (the model's own form of `MEM`). -/
def Obligations.CanonicalMemoriesAreDeterminedByReads : Prop :=
  ∀ (font : Vector Byte 80) (m m' : Memory), m.wf font → m'.wf font →
    (∀ a, Memory.read font m a = Memory.read font m' a) → m = m'

/-- R54, R58, R63: a word stored at an address within memory is the word the next fetch there reads, high byte first; no
fence, no cache. -/
def Obligations.StoredWordIsFetched : Prop :=
  ∀ (s : State) (w a : Word), s.mem.wf s.params.font → a.toNat ≤ 4094 →
    ((s.storeBytes a.toNat [BitVec.ofNat 8 (w.toNat / 256), BitVec.ofNat 8 (w.toNat % 256)]).setPc a).fetch = some w

/-! ### Host operations (60_exceptions.md, 70_reset_and_hazards.md) -/

/-- R182, R183, R184 (D15 for `set_vblank`; log 22): each writes what its rule names and nothing else. -/
def Obligations.HostWritesKeysTimersAndVblank : Prop :=
  ∀ s : State, s.fault = false →
    (∀ k, hostCall (.writeKeys k) s = .next { s with keys := k }) ∧
    (∃ t, hostCall .advanceTimers s = .next t ∧ t = { s with dt := t.dt, st := t.st } ∧
      t.dt.toNat = s.dt.toNat - 1 ∧ t.st.toNat = s.st.toNat - 1) ∧
    (∀ b, hostCall (.setVblank b) s = .next { s with vblank := b })

/-- R37, R200 (D8, D16; log 14): the values after `init`, from any state, and after reset. `PC` is left free (log 4). -/
def Obligations.InitEstablishesTheResetValues : Prop :=
  (∀ s : State, ∃ t, hostCall .init s = .next t ∧ t.params = s.params ∧ t.hostCalls = s.hostCalls) ∧
  ∀ t : State, ((∃ s, hostCall .init s = .next t) ∨ t = State.reset) →
    (∀ x : Reg, t.getV x = 0) ∧ t.i = 0 ∧ (∀ j : Fin 16, t.stack[j] = 0) ∧ t.sp = 0 ∧
    (∀ a : Fin 80, t.readByte a.val = t.params.font[a]) ∧ (∀ a, 80 ≤ a → t.readByte a = 0) ∧
    (∀ cx cy, cellAt t.fb cx cy = false) ∧ t.dt = 0 ∧ t.st = 0 ∧ (∀ k : Fin 16, t.keys[k] = false) ∧
    t.keyLatch = none ∧ t.vblank = false ∧ statusRecord t = ⟨false, false, 0, 0, 0, 0⟩

/-- R202, R203, R174 code 1 (D18; log 5, log 23): a program of at most 3584 bytes is copied to 0x200 and nothing but those
bytes, `PC` and `LOADED` changes; a longer one faults and no byte is copied, `FAULT_PC` being left free. -/
def Obligations.LoadCopiesTheProgramOrFaults : Prop :=
  ∀ (s : State) (p : List Byte), s.fault = false → s.mem.wf s.params.font →
    (p.length ≤ 3584 →
      ∃ t, hostCall (.load p) s = .next t ∧ t = { s with mem := t.mem, pc := 0x200, loaded := true } ∧
        (∀ (k : Nat) (h : k < p.length), t.readByte (0x200 + k) = p[k]) ∧
        sameMemoryExcept 0x200 p.length s t) ∧
    (3584 < p.length →
      ∃ t, hostCall (.load p) s = .next t ∧
        t = { s.faultedWith 1 0 (saturate16 p.length) with faultPc := t.faultPc, freeIndex := s.freeIndex + 1 })

/-- R186, R187 (D19; log 24), R29: the framebuffer as 2048 cells in index order, and the sound output. -/
def Obligations.OutputsShowTheFramebufferAndSound : Prop :=
  ∀ s : State, (framebuffer s).length = 2048 ∧
    (∀ cx cy : Nat, cx < 64 → cy < 32 → (framebuffer s)[cy * 64 + cx]? = some (cellAt s.fb cx cy)) ∧
    (soundActive s = true ↔ s.st.toNat ≠ 0)

/-! ### Whole machine -/

/-- The reset state is coherent: canonical memory, an empty stack, a clean record, all zero before the first load. -/
def Obligations.ResetIsCoherent : Prop := State.reset.Coherent

/-- Every step keeps a coherent state coherent, from any coherent state and with any host calls to come: memory stays canonical
and within 4096 bytes, a loaded machine's `PC` stays at or below 0x10FE and its call sites at or below 4094 (R24, R101, R108),
`FAULT` and its code agree (R34), and nothing has run before the first load (R204). -/
def Obligations.EveryStepKeepsCoherence : Prop :=
  ∀ s t : State, s.Coherent → step s = .next t → t.Coherent

/-- R214 (c) (D29; log 34): at the idle loop the tick completes and changes nothing, so the state is stable. -/
def Obligations.IdleLoopIsStable : Prop :=
  ∀ (s : State) (a : Addr12), s.hostCalls = [] → s.running = true → s.idleAt a = true →
    step s = .next s ∧ tickOutcome s = .completed

/-! ### The diagnostic of a fault (60_exceptions.md R174) -/

/-- R174 (D8; log 19): the `FAULT_INFO` of codes 1 and 6 is the length or the highest address "saturated to 65535", not
wrapped: for the model's `saturate16`, and for each operation whose info can exceed 65535. -/
def Obligations.FaultInfoSaturates : Prop :=
  (∀ n : Nat, (saturate16 n).toNat = min n 65535) ∧
  (∀ (s : State) (p : List Byte), s.fault = false → 3584 < p.length →
    ∃ t, hostCall (.load p) s = .next t ∧ t.faultCode = 1 ∧ t.faultInfo.toNat = min p.length 65535) ∧
  (∀ (x : Reg) (s : State), 4095 < s.i.toNat + 2 →
    ∃ t, exec (.ldB x) s = .next t ∧ t.faultCode = 6 ∧ t.faultInfo.toNat = min (s.i.toNat + 2) 65535) ∧
  (∀ (x : Reg) (s : State), 4095 < s.i.toNat + x.val →
    (∃ t, exec (.storeRegs x) s = .next t ∧ t.faultCode = 6 ∧ t.faultInfo.toNat = min (s.i.toNat + x.val) 65535) ∧
    (∃ t, exec (.loadRegs x) s = .next t ∧ t.faultCode = 6 ∧ t.faultInfo.toNat = min (s.i.toNat + x.val) 65535)) ∧
  (∀ (x y : Reg) (n : Nat) (s : State), (s.params.vsyncGating = true → s.vblank = true) → 0 < n →
    4095 < s.i.toNat + (n - 1) →
    ∃ t, exec (.drw x y n) s = .next t ∧ t.faultCode = 6 ∧ t.faultInfo.toNat = min (s.i.toNat + (n - 1)) 65535)
end

