-- ==== Sys2Proof/Laws/Decode.lean ====
section
/-! SUPPORT. The fields of a packed word, the masks of the opcode map as fields, and the bytes of a word. -/

namespace Sys2Proof

/-! ### Fields as numbers -/

theorem fieldOp_toNat (w : Word) : (fieldOp w).toNat = w.toNat / 4096 := by
  have := w.isLt
  simp only [fieldOp, BitVec.extractLsb'_toNat, Nat.shiftRight_eq_div_pow]; omega

theorem fieldX_val (w : Word) : (fieldX w).val = w.toNat / 256 % 16 := by
  have h : (fieldX w).val = (w.extractLsb' 8 4).toNat := rfl
  rw [h, BitVec.extractLsb'_toNat, Nat.shiftRight_eq_div_pow]

theorem fieldY_val (w : Word) : (fieldY w).val = w.toNat / 16 % 16 := by
  have h : (fieldY w).val = (w.extractLsb' 4 4).toNat := rfl
  rw [h, BitVec.extractLsb'_toNat, Nat.shiftRight_eq_div_pow]

theorem fieldN_toNat (w : Word) : (fieldN w).toNat = w.toNat % 16 := by
  simp only [fieldN, BitVec.extractLsb'_toNat, Nat.shiftRight_eq_div_pow]; omega

theorem fieldNN_toNat (w : Word) : (fieldNN w).toNat = w.toNat % 256 := by
  simp only [fieldNN, BitVec.extractLsb'_toNat, Nat.shiftRight_eq_div_pow]; omega

theorem fieldNNN_toNat (w : Word) : (fieldNNN w).toNat = w.toNat % 4096 := by
  simp only [fieldNNN, BitVec.extractLsb'_toNat, Nat.shiftRight_eq_div_pow]; omega

/-- The fields of a word are all of it: `op`, `x`, `y` and `n` in their places (R71). -/
theorem word_toNat_fields (w : Word) :
    w.toNat = (fieldOp w).toNat * 4096 + (fieldX w).val * 256 + (fieldY w).val * 16 + (fieldN w).toNat := by
  have := w.isLt
  rw [fieldOp_toNat, fieldX_val, fieldY_val, fieldN_toNat]; omega

/-- `nn = y*16 + n` (R71). -/
theorem fieldNN_split (w : Word) : (fieldNN w).toNat = (fieldY w).val * 16 + (fieldN w).toNat := by
  rw [fieldNN_toNat, fieldY_val, fieldN_toNat]; omega

/-- `nnn = x*256 + nn` (R71). -/
theorem fieldNNN_split (w : Word) : (fieldNNN w).toNat = (fieldX w).val * 256 + (fieldNN w).toNat := by
  rw [fieldNNN_toNat, fieldX_val, fieldNN_toNat]; omega

/-! ### Fields of a packed word -/

theorem packXYN_toNat {op x y n : Nat} (ho : op < 16) (hx : x < 16) (hy : y < 16) (hn : n < 16) :
    (packXYN op x y n).toNat = op * 4096 + x * 256 + y * 16 + n := by
  simp only [packXYN, BitVec.toNat_ofNat]; omega

theorem packXNN_toNat {op x nn : Nat} (ho : op < 16) (hx : x < 16) (hn : nn < 256) :
    (packXNN op x nn).toNat = op * 4096 + x * 256 + nn := by
  simp only [packXNN, BitVec.toNat_ofNat]; omega

theorem packNNN_toNat {op nnn : Nat} (ho : op < 16) (hn : nnn < 4096) :
    (packNNN op nnn).toNat = op * 4096 + nnn := by
  simp only [packNNN, BitVec.toNat_ofNat]; omega

theorem fieldOp_packXYN {op n : Nat} (x y : Reg) (ho : op < 16) (hn : n < 16) :
    fieldOp (packXYN op x y n) = BitVec.ofNat 4 op := by
  apply BitVec.eq_of_toNat_eq
  rw [fieldOp_toNat, packXYN_toNat ho x.isLt y.isLt hn, BitVec.toNat_ofNat]; omega

theorem fieldX_packXYN {op n : Nat} (x y : Reg) (ho : op < 16) (hn : n < 16) :
    fieldX (packXYN op x y n) = x := by
  apply Fin.ext
  rw [fieldX_val, packXYN_toNat ho x.isLt y.isLt hn]; omega

theorem fieldY_packXYN {op n : Nat} (x y : Reg) (ho : op < 16) (hn : n < 16) :
    fieldY (packXYN op x y n) = y := by
  apply Fin.ext
  rw [fieldY_val, packXYN_toNat ho x.isLt y.isLt hn]; omega

theorem fieldN_packXYN {op n : Nat} (x y : Reg) (ho : op < 16) (hn : n < 16) :
    (fieldN (packXYN op x y n)).toNat = n := by
  rw [fieldN_toNat, packXYN_toNat ho x.isLt y.isLt hn]; omega

theorem fieldOp_packXNN {op nn : Nat} (x : Reg) (ho : op < 16) (hn : nn < 256) :
    fieldOp (packXNN op x nn) = BitVec.ofNat 4 op := by
  apply BitVec.eq_of_toNat_eq
  rw [fieldOp_toNat, packXNN_toNat ho x.isLt hn, BitVec.toNat_ofNat]; omega

theorem fieldX_packXNN {op nn : Nat} (x : Reg) (ho : op < 16) (hn : nn < 256) :
    fieldX (packXNN op x nn) = x := by
  apply Fin.ext
  rw [fieldX_val, packXNN_toNat ho x.isLt hn]; omega

theorem fieldNN_packXNN {op nn : Nat} (x : Reg) (ho : op < 16) (hn : nn < 256) :
    (fieldNN (packXNN op x nn)).toNat = nn := by
  rw [fieldNN_toNat, packXNN_toNat ho x.isLt hn]; omega

/-- The immediate of a packed word, as the bit vector it was packed from. -/
theorem fieldNN_packXNN_imm {op : Nat} (x : Reg) (nn : Byte) (ho : op < 16) :
    fieldNN (packXNN op x nn.toNat) = nn :=
  BitVec.eq_of_toNat_eq (fieldNN_packXNN x ho nn.isLt)

theorem fieldOp_packNNN {op nnn : Nat} (ho : op < 16) (hn : nnn < 4096) :
    fieldOp (packNNN op nnn) = BitVec.ofNat 4 op := by
  apply BitVec.eq_of_toNat_eq
  rw [fieldOp_toNat, packNNN_toNat ho hn, BitVec.toNat_ofNat]; omega

theorem fieldNNN_packNNN {op nnn : Nat} (ho : op < 16) (hn : nnn < 4096) :
    (fieldNNN (packNNN op nnn)).toNat = nnn := by
  rw [fieldNNN_toNat, packNNN_toNat ho hn]; omega

/-- The address of a packed word, as the bit vector it was packed from. -/
theorem fieldNNN_packNNN_addr {op : Nat} (nnn : Addr12) (ho : op < 16) :
    fieldNNN (packNNN op nnn.toNat) = nnn :=
  BitVec.eq_of_toNat_eq (fieldNNN_packNNN ho nnn.isLt)

/-! ### The masks of R74 as fields -/

theorem word_and_F000 (w : Word) : w &&& 0xF000#16 = fieldOp w ++ 0x000#12 := by
  apply BitVec.eq_of_getLsbD_eq
  intro i hi
  rw [BitVec.getLsbD_append]
  interval_cases i <;> simp [fieldOp]

theorem word_and_F00F (w : Word) : w &&& 0xF00F#16 = fieldOp w ++ 0x00#8 ++ fieldN w := by
  apply BitVec.eq_of_getLsbD_eq
  intro i hi
  rw [BitVec.getLsbD_append, BitVec.getLsbD_append]
  interval_cases i <;> simp [fieldOp, fieldN]

theorem word_and_F0FF (w : Word) : w &&& 0xF0FF#16 = fieldOp w ++ 0x0#4 ++ fieldNN w := by
  apply BitVec.eq_of_getLsbD_eq
  intro i hi
  rw [BitVec.getLsbD_append, BitVec.getLsbD_append]
  interval_cases i <;> simp [fieldOp, fieldNN]

theorem word_and_FFFF (w : Word) : w &&& 0xFFFF#16 = w := by
  simpa using BitVec.and_allOnes (x := w)

theorem toNat_append_eq {m n : Nat} (a : BitVec m) (b : BitVec n) :
    (a ++ b).toNat = a.toNat * 2 ^ n + b.toNat := by
  rw [BitVec.toNat_append, ← Nat.shiftLeft_add_eq_or_of_lt b.isLt, Nat.shiftLeft_eq]

theorem word_and_F000_toNat (w : Word) : (w &&& 0xF000#16).toNat = w.toNat / 4096 * 4096 := by
  rw [word_and_F000, toNat_append_eq, fieldOp_toNat, BitVec.toNat_ofNat]; omega

theorem word_and_F00F_toNat (w : Word) : (w &&& 0xF00F#16).toNat = w.toNat / 4096 * 4096 + w.toNat % 16 := by
  rw [word_and_F00F, toNat_append_eq, toNat_append_eq, fieldOp_toNat, fieldN_toNat, BitVec.toNat_ofNat]; omega

theorem word_and_F0FF_toNat (w : Word) : (w &&& 0xF0FF#16).toNat = w.toNat / 4096 * 4096 + w.toNat % 256 := by
  rw [word_and_F0FF, toNat_append_eq, toNat_append_eq, fieldOp_toNat, fieldNN_toNat, BitVec.toNat_ofNat]; omega

/-- A packed word of format `NNN` under its row's mask. -/
theorem packNNN_and {op nnn : Nat} (ho : op < 16) (hn : nnn < 4096) :
    packNNN op nnn &&& 0xF000#16 = BitVec.ofNat 16 (op * 4096) := by
  apply BitVec.eq_of_toNat_eq
  rw [word_and_F000_toNat, packNNN_toNat ho hn, BitVec.toNat_ofNat]; omega

/-- A packed word of format `XNN` under the mask of `op`. -/
theorem packXNN_and_op {op nn : Nat} (x : Reg) (ho : op < 16) (hn : nn < 256) :
    packXNN op x nn &&& 0xF000#16 = BitVec.ofNat 16 (op * 4096) := by
  apply BitVec.eq_of_toNat_eq
  rw [word_and_F000_toNat, packXNN_toNat ho x.isLt hn, BitVec.toNat_ofNat]; omega

/-- A packed word of format `X` under the mask of `op` and the low byte. -/
theorem packXNN_and_opNN {op nn : Nat} (x : Reg) (ho : op < 16) (hn : nn < 256) :
    packXNN op x nn &&& 0xF0FF#16 = BitVec.ofNat 16 (op * 4096 + nn) := by
  apply BitVec.eq_of_toNat_eq
  rw [word_and_F0FF_toNat, packXNN_toNat ho x.isLt hn, BitVec.toNat_ofNat]; omega

/-- A packed word of format `XY` under the mask of `op` and the low nibble. -/
theorem packXYN_and_opN {op n : Nat} (x y : Reg) (ho : op < 16) (hn : n < 16) :
    packXYN op x y n &&& 0xF00F#16 = BitVec.ofNat 16 (op * 4096 + n) := by
  apply BitVec.eq_of_toNat_eq
  rw [word_and_F00F_toNat, packXYN_toNat ho x.isLt y.isLt hn, BitVec.toNat_ofNat]; omega

/-- A packed word of format `XYN` under the mask of `op`. -/
theorem packXYN_and_op {op n : Nat} (x y : Reg) (ho : op < 16) (hn : n < 16) :
    packXYN op x y n &&& 0xF000#16 = BitVec.ofNat 16 (op * 4096) := by
  apply BitVec.eq_of_toNat_eq
  rw [word_and_F000_toNat, packXYN_toNat ho x.isLt y.isLt hn, BitVec.toNat_ofNat]; omega

/-! ### The bytes of a word -/

/-- The two bytes of a word give the word back. -/
theorem wordOfBytes_wordBytes (w : Word) :
    wordOfBytes (BitVec.ofNat 8 (w.toNat / 256)) (BitVec.ofNat 8 (w.toNat % 256)) = w := by
  apply BitVec.eq_of_toNat_eq
  have := w.isLt
  simp only [wordOfBytes, BitVec.toNat_ofNat]; omega

theorem wordOfBytes_toNat (hi lo : Byte) : (wordOfBytes hi lo).toNat = hi.toNat * 256 + lo.toNat := by
  have := hi.isLt
  have := lo.isLt
  simp only [wordOfBytes, BitVec.toNat_ofNat]; omega

/-- The byte decoder on the bytes of a word reads the word. -/
theorem decode_wordBytes (w : Word) (rest : List Byte) :
    decode (wordBytes w ++ rest) =
      match decodeWord w with
      | some i => .ok (i, rest)
      | none => .error (.illegalInstruction w) := by
  cases h : decodeWord w <;> simp [wordBytes, decode, wordOfBytes_wordBytes, h]

end Sys2Proof
end

