-- ==== Sys2Proof/Laws/State.lean ====
section
/-! SUPPORT. One lemma per field per update of the state, so that no proof unfolds a record update. -/

namespace Sys2Proof.Machine

/-! ### `State.setV` -/

@[simp] theorem setV_v (s : State) (x : Reg) (b : Byte) : (s.setV x b).v = s.v.set x b := rfl
@[simp] theorem setV_i (s : State) (x : Reg) (b : Byte) : (s.setV x b).i = s.i := rfl
@[simp] theorem setV_pc (s : State) (x : Reg) (b : Byte) : (s.setV x b).pc = s.pc := rfl
@[simp] theorem setV_stack (s : State) (x : Reg) (b : Byte) : (s.setV x b).stack = s.stack := rfl
@[simp] theorem setV_sp (s : State) (x : Reg) (b : Byte) : (s.setV x b).sp = s.sp := rfl
@[simp] theorem setV_mem (s : State) (x : Reg) (b : Byte) : (s.setV x b).mem = s.mem := rfl
@[simp] theorem setV_fb (s : State) (x : Reg) (b : Byte) : (s.setV x b).fb = s.fb := rfl
@[simp] theorem setV_dt (s : State) (x : Reg) (b : Byte) : (s.setV x b).dt = s.dt := rfl
@[simp] theorem setV_st (s : State) (x : Reg) (b : Byte) : (s.setV x b).st = s.st := rfl
@[simp] theorem setV_keys (s : State) (x : Reg) (b : Byte) : (s.setV x b).keys = s.keys := rfl
@[simp] theorem setV_keyLatch (s : State) (x : Reg) (b : Byte) : (s.setV x b).keyLatch = s.keyLatch := rfl
@[simp] theorem setV_vblank (s : State) (x : Reg) (b : Byte) : (s.setV x b).vblank = s.vblank := rfl
@[simp] theorem setV_loaded (s : State) (x : Reg) (b : Byte) : (s.setV x b).loaded = s.loaded := rfl
@[simp] theorem setV_fault (s : State) (x : Reg) (b : Byte) : (s.setV x b).fault = s.fault := rfl
@[simp] theorem setV_faultCode (s : State) (x : Reg) (b : Byte) : (s.setV x b).faultCode = s.faultCode := rfl
@[simp] theorem setV_faultPc (s : State) (x : Reg) (b : Byte) : (s.setV x b).faultPc = s.faultPc := rfl
@[simp] theorem setV_faultWord (s : State) (x : Reg) (b : Byte) : (s.setV x b).faultWord = s.faultWord := rfl
@[simp] theorem setV_faultInfo (s : State) (x : Reg) (b : Byte) : (s.setV x b).faultInfo = s.faultInfo := rfl
@[simp] theorem setV_params (s : State) (x : Reg) (b : Byte) : (s.setV x b).params = s.params := rfl
@[simp] theorem setV_freeIndex (s : State) (x : Reg) (b : Byte) : (s.setV x b).freeIndex = s.freeIndex := rfl
@[simp] theorem setV_hostCalls (s : State) (x : Reg) (b : Byte) : (s.setV x b).hostCalls = s.hostCalls := rfl

/-! ### `State.setI` -/

@[simp] theorem setI_v (s : State) (a : Word) : (s.setI a).v = s.v := rfl
@[simp] theorem setI_i (s : State) (a : Word) : (s.setI a).i = a := rfl
@[simp] theorem setI_pc (s : State) (a : Word) : (s.setI a).pc = s.pc := rfl
@[simp] theorem setI_stack (s : State) (a : Word) : (s.setI a).stack = s.stack := rfl
@[simp] theorem setI_sp (s : State) (a : Word) : (s.setI a).sp = s.sp := rfl
@[simp] theorem setI_mem (s : State) (a : Word) : (s.setI a).mem = s.mem := rfl
@[simp] theorem setI_fb (s : State) (a : Word) : (s.setI a).fb = s.fb := rfl
@[simp] theorem setI_dt (s : State) (a : Word) : (s.setI a).dt = s.dt := rfl
@[simp] theorem setI_st (s : State) (a : Word) : (s.setI a).st = s.st := rfl
@[simp] theorem setI_keys (s : State) (a : Word) : (s.setI a).keys = s.keys := rfl
@[simp] theorem setI_keyLatch (s : State) (a : Word) : (s.setI a).keyLatch = s.keyLatch := rfl
@[simp] theorem setI_vblank (s : State) (a : Word) : (s.setI a).vblank = s.vblank := rfl
@[simp] theorem setI_loaded (s : State) (a : Word) : (s.setI a).loaded = s.loaded := rfl
@[simp] theorem setI_fault (s : State) (a : Word) : (s.setI a).fault = s.fault := rfl
@[simp] theorem setI_faultCode (s : State) (a : Word) : (s.setI a).faultCode = s.faultCode := rfl
@[simp] theorem setI_faultPc (s : State) (a : Word) : (s.setI a).faultPc = s.faultPc := rfl
@[simp] theorem setI_faultWord (s : State) (a : Word) : (s.setI a).faultWord = s.faultWord := rfl
@[simp] theorem setI_faultInfo (s : State) (a : Word) : (s.setI a).faultInfo = s.faultInfo := rfl
@[simp] theorem setI_params (s : State) (a : Word) : (s.setI a).params = s.params := rfl
@[simp] theorem setI_freeIndex (s : State) (a : Word) : (s.setI a).freeIndex = s.freeIndex := rfl
@[simp] theorem setI_hostCalls (s : State) (a : Word) : (s.setI a).hostCalls = s.hostCalls := rfl

/-! ### `State.setPc` -/

@[simp] theorem setPc_v (s : State) (a : Word) : (s.setPc a).v = s.v := rfl
@[simp] theorem setPc_i (s : State) (a : Word) : (s.setPc a).i = s.i := rfl
@[simp] theorem setPc_pc (s : State) (a : Word) : (s.setPc a).pc = a := rfl
@[simp] theorem setPc_stack (s : State) (a : Word) : (s.setPc a).stack = s.stack := rfl
@[simp] theorem setPc_sp (s : State) (a : Word) : (s.setPc a).sp = s.sp := rfl
@[simp] theorem setPc_mem (s : State) (a : Word) : (s.setPc a).mem = s.mem := rfl
@[simp] theorem setPc_fb (s : State) (a : Word) : (s.setPc a).fb = s.fb := rfl
@[simp] theorem setPc_dt (s : State) (a : Word) : (s.setPc a).dt = s.dt := rfl
@[simp] theorem setPc_st (s : State) (a : Word) : (s.setPc a).st = s.st := rfl
@[simp] theorem setPc_keys (s : State) (a : Word) : (s.setPc a).keys = s.keys := rfl
@[simp] theorem setPc_keyLatch (s : State) (a : Word) : (s.setPc a).keyLatch = s.keyLatch := rfl
@[simp] theorem setPc_vblank (s : State) (a : Word) : (s.setPc a).vblank = s.vblank := rfl
@[simp] theorem setPc_loaded (s : State) (a : Word) : (s.setPc a).loaded = s.loaded := rfl
@[simp] theorem setPc_fault (s : State) (a : Word) : (s.setPc a).fault = s.fault := rfl
@[simp] theorem setPc_faultCode (s : State) (a : Word) : (s.setPc a).faultCode = s.faultCode := rfl
@[simp] theorem setPc_faultPc (s : State) (a : Word) : (s.setPc a).faultPc = s.faultPc := rfl
@[simp] theorem setPc_faultWord (s : State) (a : Word) : (s.setPc a).faultWord = s.faultWord := rfl
@[simp] theorem setPc_faultInfo (s : State) (a : Word) : (s.setPc a).faultInfo = s.faultInfo := rfl
@[simp] theorem setPc_params (s : State) (a : Word) : (s.setPc a).params = s.params := rfl
@[simp] theorem setPc_freeIndex (s : State) (a : Word) : (s.setPc a).freeIndex = s.freeIndex := rfl
@[simp] theorem setPc_hostCalls (s : State) (a : Word) : (s.setPc a).hostCalls = s.hostCalls := rfl

/-! ### `State.advance` -/

@[simp] theorem advance_v (s : State) : (s.advance).v = s.v := rfl
@[simp] theorem advance_i (s : State) : (s.advance).i = s.i := rfl
@[simp] theorem advance_pc (s : State) : (s.advance).pc = s.pc + 2 := rfl
@[simp] theorem advance_stack (s : State) : (s.advance).stack = s.stack := rfl
@[simp] theorem advance_sp (s : State) : (s.advance).sp = s.sp := rfl
@[simp] theorem advance_mem (s : State) : (s.advance).mem = s.mem := rfl
@[simp] theorem advance_fb (s : State) : (s.advance).fb = s.fb := rfl
@[simp] theorem advance_dt (s : State) : (s.advance).dt = s.dt := rfl
@[simp] theorem advance_st (s : State) : (s.advance).st = s.st := rfl
@[simp] theorem advance_keys (s : State) : (s.advance).keys = s.keys := rfl
@[simp] theorem advance_keyLatch (s : State) : (s.advance).keyLatch = s.keyLatch := rfl
@[simp] theorem advance_vblank (s : State) : (s.advance).vblank = s.vblank := rfl
@[simp] theorem advance_loaded (s : State) : (s.advance).loaded = s.loaded := rfl
@[simp] theorem advance_fault (s : State) : (s.advance).fault = s.fault := rfl
@[simp] theorem advance_faultCode (s : State) : (s.advance).faultCode = s.faultCode := rfl
@[simp] theorem advance_faultPc (s : State) : (s.advance).faultPc = s.faultPc := rfl
@[simp] theorem advance_faultWord (s : State) : (s.advance).faultWord = s.faultWord := rfl
@[simp] theorem advance_faultInfo (s : State) : (s.advance).faultInfo = s.faultInfo := rfl
@[simp] theorem advance_params (s : State) : (s.advance).params = s.params := rfl
@[simp] theorem advance_freeIndex (s : State) : (s.advance).freeIndex = s.freeIndex := rfl
@[simp] theorem advance_hostCalls (s : State) : (s.advance).hostCalls = s.hostCalls := rfl

/-! ### `State.storeBytes` -/

@[simp] theorem storeBytes_v (s : State) (a : Nat) (bs : List Byte) : (s.storeBytes a bs).v = s.v := rfl
@[simp] theorem storeBytes_i (s : State) (a : Nat) (bs : List Byte) : (s.storeBytes a bs).i = s.i := rfl
@[simp] theorem storeBytes_pc (s : State) (a : Nat) (bs : List Byte) : (s.storeBytes a bs).pc = s.pc := rfl
@[simp] theorem storeBytes_stack (s : State) (a : Nat) (bs : List Byte) : (s.storeBytes a bs).stack = s.stack := rfl
@[simp] theorem storeBytes_sp (s : State) (a : Nat) (bs : List Byte) : (s.storeBytes a bs).sp = s.sp := rfl
@[simp] theorem storeBytes_mem (s : State) (a : Nat) (bs : List Byte) : (s.storeBytes a bs).mem = s.mem.writeBytes s.params.font a bs := rfl
@[simp] theorem storeBytes_fb (s : State) (a : Nat) (bs : List Byte) : (s.storeBytes a bs).fb = s.fb := rfl
@[simp] theorem storeBytes_dt (s : State) (a : Nat) (bs : List Byte) : (s.storeBytes a bs).dt = s.dt := rfl
@[simp] theorem storeBytes_st (s : State) (a : Nat) (bs : List Byte) : (s.storeBytes a bs).st = s.st := rfl
@[simp] theorem storeBytes_keys (s : State) (a : Nat) (bs : List Byte) : (s.storeBytes a bs).keys = s.keys := rfl
@[simp] theorem storeBytes_keyLatch (s : State) (a : Nat) (bs : List Byte) : (s.storeBytes a bs).keyLatch = s.keyLatch := rfl
@[simp] theorem storeBytes_vblank (s : State) (a : Nat) (bs : List Byte) : (s.storeBytes a bs).vblank = s.vblank := rfl
@[simp] theorem storeBytes_loaded (s : State) (a : Nat) (bs : List Byte) : (s.storeBytes a bs).loaded = s.loaded := rfl
@[simp] theorem storeBytes_fault (s : State) (a : Nat) (bs : List Byte) : (s.storeBytes a bs).fault = s.fault := rfl
@[simp] theorem storeBytes_faultCode (s : State) (a : Nat) (bs : List Byte) : (s.storeBytes a bs).faultCode = s.faultCode := rfl
@[simp] theorem storeBytes_faultPc (s : State) (a : Nat) (bs : List Byte) : (s.storeBytes a bs).faultPc = s.faultPc := rfl
@[simp] theorem storeBytes_faultWord (s : State) (a : Nat) (bs : List Byte) : (s.storeBytes a bs).faultWord = s.faultWord := rfl
@[simp] theorem storeBytes_faultInfo (s : State) (a : Nat) (bs : List Byte) : (s.storeBytes a bs).faultInfo = s.faultInfo := rfl
@[simp] theorem storeBytes_params (s : State) (a : Nat) (bs : List Byte) : (s.storeBytes a bs).params = s.params := rfl
@[simp] theorem storeBytes_freeIndex (s : State) (a : Nat) (bs : List Byte) : (s.storeBytes a bs).freeIndex = s.freeIndex := rfl
@[simp] theorem storeBytes_hostCalls (s : State) (a : Nat) (bs : List Byte) : (s.storeBytes a bs).hostCalls = s.hostCalls := rfl

/-! ### `State.setResultAndFlag` -/

@[simp] theorem setResultAndFlag_v (s : State) (x : Reg) (r : Byte) (c : Bool) : (s.setResultAndFlag x r c).v = (s.v.set x r).set VF (flagByte c) := rfl
@[simp] theorem setResultAndFlag_i (s : State) (x : Reg) (r : Byte) (c : Bool) : (s.setResultAndFlag x r c).i = s.i := rfl
@[simp] theorem setResultAndFlag_pc (s : State) (x : Reg) (r : Byte) (c : Bool) : (s.setResultAndFlag x r c).pc = s.pc := rfl
@[simp] theorem setResultAndFlag_stack (s : State) (x : Reg) (r : Byte) (c : Bool) : (s.setResultAndFlag x r c).stack = s.stack := rfl
@[simp] theorem setResultAndFlag_sp (s : State) (x : Reg) (r : Byte) (c : Bool) : (s.setResultAndFlag x r c).sp = s.sp := rfl
@[simp] theorem setResultAndFlag_mem (s : State) (x : Reg) (r : Byte) (c : Bool) : (s.setResultAndFlag x r c).mem = s.mem := rfl
@[simp] theorem setResultAndFlag_fb (s : State) (x : Reg) (r : Byte) (c : Bool) : (s.setResultAndFlag x r c).fb = s.fb := rfl
@[simp] theorem setResultAndFlag_dt (s : State) (x : Reg) (r : Byte) (c : Bool) : (s.setResultAndFlag x r c).dt = s.dt := rfl
@[simp] theorem setResultAndFlag_st (s : State) (x : Reg) (r : Byte) (c : Bool) : (s.setResultAndFlag x r c).st = s.st := rfl
@[simp] theorem setResultAndFlag_keys (s : State) (x : Reg) (r : Byte) (c : Bool) : (s.setResultAndFlag x r c).keys = s.keys := rfl
@[simp] theorem setResultAndFlag_keyLatch (s : State) (x : Reg) (r : Byte) (c : Bool) : (s.setResultAndFlag x r c).keyLatch = s.keyLatch := rfl
@[simp] theorem setResultAndFlag_vblank (s : State) (x : Reg) (r : Byte) (c : Bool) : (s.setResultAndFlag x r c).vblank = s.vblank := rfl
@[simp] theorem setResultAndFlag_loaded (s : State) (x : Reg) (r : Byte) (c : Bool) : (s.setResultAndFlag x r c).loaded = s.loaded := rfl
@[simp] theorem setResultAndFlag_fault (s : State) (x : Reg) (r : Byte) (c : Bool) : (s.setResultAndFlag x r c).fault = s.fault := rfl
@[simp] theorem setResultAndFlag_faultCode (s : State) (x : Reg) (r : Byte) (c : Bool) : (s.setResultAndFlag x r c).faultCode = s.faultCode := rfl
@[simp] theorem setResultAndFlag_faultPc (s : State) (x : Reg) (r : Byte) (c : Bool) : (s.setResultAndFlag x r c).faultPc = s.faultPc := rfl
@[simp] theorem setResultAndFlag_faultWord (s : State) (x : Reg) (r : Byte) (c : Bool) : (s.setResultAndFlag x r c).faultWord = s.faultWord := rfl
@[simp] theorem setResultAndFlag_faultInfo (s : State) (x : Reg) (r : Byte) (c : Bool) : (s.setResultAndFlag x r c).faultInfo = s.faultInfo := rfl
@[simp] theorem setResultAndFlag_params (s : State) (x : Reg) (r : Byte) (c : Bool) : (s.setResultAndFlag x r c).params = s.params := rfl
@[simp] theorem setResultAndFlag_freeIndex (s : State) (x : Reg) (r : Byte) (c : Bool) : (s.setResultAndFlag x r c).freeIndex = s.freeIndex := rfl
@[simp] theorem setResultAndFlag_hostCalls (s : State) (x : Reg) (r : Byte) (c : Bool) : (s.setResultAndFlag x r c).hostCalls = s.hostCalls := rfl

/-! ### `raise` -/

@[simp] theorem raise_v (s : State) (c : FaultCause) (w : Word) (n : Nat) : (raise c w n s).v = s.v := rfl
@[simp] theorem raise_i (s : State) (c : FaultCause) (w : Word) (n : Nat) : (raise c w n s).i = s.i := rfl
@[simp] theorem raise_pc (s : State) (c : FaultCause) (w : Word) (n : Nat) : (raise c w n s).pc = s.pc := rfl
@[simp] theorem raise_stack (s : State) (c : FaultCause) (w : Word) (n : Nat) : (raise c w n s).stack = s.stack := rfl
@[simp] theorem raise_sp (s : State) (c : FaultCause) (w : Word) (n : Nat) : (raise c w n s).sp = s.sp := rfl
@[simp] theorem raise_mem (s : State) (c : FaultCause) (w : Word) (n : Nat) : (raise c w n s).mem = s.mem := rfl
@[simp] theorem raise_fb (s : State) (c : FaultCause) (w : Word) (n : Nat) : (raise c w n s).fb = s.fb := rfl
@[simp] theorem raise_dt (s : State) (c : FaultCause) (w : Word) (n : Nat) : (raise c w n s).dt = s.dt := rfl
@[simp] theorem raise_st (s : State) (c : FaultCause) (w : Word) (n : Nat) : (raise c w n s).st = s.st := rfl
@[simp] theorem raise_keys (s : State) (c : FaultCause) (w : Word) (n : Nat) : (raise c w n s).keys = s.keys := rfl
@[simp] theorem raise_keyLatch (s : State) (c : FaultCause) (w : Word) (n : Nat) : (raise c w n s).keyLatch = s.keyLatch := rfl
@[simp] theorem raise_vblank (s : State) (c : FaultCause) (w : Word) (n : Nat) : (raise c w n s).vblank = s.vblank := rfl
@[simp] theorem raise_loaded (s : State) (c : FaultCause) (w : Word) (n : Nat) : (raise c w n s).loaded = s.loaded := rfl
@[simp] theorem raise_fault (s : State) (c : FaultCause) (w : Word) (n : Nat) : (raise c w n s).fault = true := rfl
@[simp] theorem raise_faultCode (s : State) (c : FaultCause) (w : Word) (n : Nat) : (raise c w n s).faultCode = codeOf c := rfl
@[simp] theorem raise_faultPc (s : State) (c : FaultCause) (w : Word) (n : Nat) : (raise c w n s).faultPc = s.pc := rfl
@[simp] theorem raise_faultWord (s : State) (c : FaultCause) (w : Word) (n : Nat) : (raise c w n s).faultWord = w := rfl
@[simp] theorem raise_faultInfo (s : State) (c : FaultCause) (w : Word) (n : Nat) : (raise c w n s).faultInfo = saturate16 n := rfl
@[simp] theorem raise_params (s : State) (c : FaultCause) (w : Word) (n : Nat) : (raise c w n s).params = s.params := rfl
@[simp] theorem raise_freeIndex (s : State) (c : FaultCause) (w : Word) (n : Nat) : (raise c w n s).freeIndex = s.freeIndex := rfl
@[simp] theorem raise_hostCalls (s : State) (c : FaultCause) (w : Word) (n : Nat) : (raise c w n s).hostCalls = s.hostCalls := rfl

/-! ### `raiseAt` -/

@[simp] theorem raiseAt_v (s : State) (c : FaultCause) (j : Instr) (n : Nat) : (raiseAt c j n s).v = s.v := rfl
@[simp] theorem raiseAt_i (s : State) (c : FaultCause) (j : Instr) (n : Nat) : (raiseAt c j n s).i = s.i := rfl
@[simp] theorem raiseAt_pc (s : State) (c : FaultCause) (j : Instr) (n : Nat) : (raiseAt c j n s).pc = s.pc := rfl
@[simp] theorem raiseAt_stack (s : State) (c : FaultCause) (j : Instr) (n : Nat) : (raiseAt c j n s).stack = s.stack := rfl
@[simp] theorem raiseAt_sp (s : State) (c : FaultCause) (j : Instr) (n : Nat) : (raiseAt c j n s).sp = s.sp := rfl
@[simp] theorem raiseAt_mem (s : State) (c : FaultCause) (j : Instr) (n : Nat) : (raiseAt c j n s).mem = s.mem := rfl
@[simp] theorem raiseAt_fb (s : State) (c : FaultCause) (j : Instr) (n : Nat) : (raiseAt c j n s).fb = s.fb := rfl
@[simp] theorem raiseAt_dt (s : State) (c : FaultCause) (j : Instr) (n : Nat) : (raiseAt c j n s).dt = s.dt := rfl
@[simp] theorem raiseAt_st (s : State) (c : FaultCause) (j : Instr) (n : Nat) : (raiseAt c j n s).st = s.st := rfl
@[simp] theorem raiseAt_keys (s : State) (c : FaultCause) (j : Instr) (n : Nat) : (raiseAt c j n s).keys = s.keys := rfl
@[simp] theorem raiseAt_keyLatch (s : State) (c : FaultCause) (j : Instr) (n : Nat) : (raiseAt c j n s).keyLatch = s.keyLatch := rfl
@[simp] theorem raiseAt_vblank (s : State) (c : FaultCause) (j : Instr) (n : Nat) : (raiseAt c j n s).vblank = s.vblank := rfl
@[simp] theorem raiseAt_loaded (s : State) (c : FaultCause) (j : Instr) (n : Nat) : (raiseAt c j n s).loaded = s.loaded := rfl
@[simp] theorem raiseAt_fault (s : State) (c : FaultCause) (j : Instr) (n : Nat) : (raiseAt c j n s).fault = true := rfl
@[simp] theorem raiseAt_faultCode (s : State) (c : FaultCause) (j : Instr) (n : Nat) : (raiseAt c j n s).faultCode = codeOf c := rfl
@[simp] theorem raiseAt_faultPc (s : State) (c : FaultCause) (j : Instr) (n : Nat) : (raiseAt c j n s).faultPc = s.pc := rfl
@[simp] theorem raiseAt_faultWord (s : State) (c : FaultCause) (j : Instr) (n : Nat) : (raiseAt c j n s).faultWord = encode j := rfl
@[simp] theorem raiseAt_faultInfo (s : State) (c : FaultCause) (j : Instr) (n : Nat) : (raiseAt c j n s).faultInfo = saturate16 n := rfl
@[simp] theorem raiseAt_params (s : State) (c : FaultCause) (j : Instr) (n : Nat) : (raiseAt c j n s).params = s.params := rfl
@[simp] theorem raiseAt_freeIndex (s : State) (c : FaultCause) (j : Instr) (n : Nat) : (raiseAt c j n s).freeIndex = s.freeIndex := rfl
@[simp] theorem raiseAt_hostCalls (s : State) (c : FaultCause) (j : Instr) (n : Nat) : (raiseAt c j n s).hostCalls = s.hostCalls := rfl

/-! ### `drawCompleted` -/

@[simp] theorem drawCompleted_v (s : State) (d : Drawing) : (drawCompleted d s).v = s.v.set VF (flagByte d.collision) := rfl
@[simp] theorem drawCompleted_i (s : State) (d : Drawing) : (drawCompleted d s).i = s.i := rfl
@[simp] theorem drawCompleted_pc (s : State) (d : Drawing) : (drawCompleted d s).pc = s.pc + 2 := rfl
@[simp] theorem drawCompleted_stack (s : State) (d : Drawing) : (drawCompleted d s).stack = s.stack := rfl
@[simp] theorem drawCompleted_sp (s : State) (d : Drawing) : (drawCompleted d s).sp = s.sp := rfl
@[simp] theorem drawCompleted_mem (s : State) (d : Drawing) : (drawCompleted d s).mem = s.mem := rfl
@[simp] theorem drawCompleted_fb (s : State) (d : Drawing) : (drawCompleted d s).fb = d.fb := rfl
@[simp] theorem drawCompleted_dt (s : State) (d : Drawing) : (drawCompleted d s).dt = s.dt := rfl
@[simp] theorem drawCompleted_st (s : State) (d : Drawing) : (drawCompleted d s).st = s.st := rfl
@[simp] theorem drawCompleted_keys (s : State) (d : Drawing) : (drawCompleted d s).keys = s.keys := rfl
@[simp] theorem drawCompleted_keyLatch (s : State) (d : Drawing) : (drawCompleted d s).keyLatch = s.keyLatch := rfl
@[simp] theorem drawCompleted_vblank (s : State) (d : Drawing) : (drawCompleted d s).vblank = vblankAfterDraw s := rfl
@[simp] theorem drawCompleted_loaded (s : State) (d : Drawing) : (drawCompleted d s).loaded = s.loaded := rfl
@[simp] theorem drawCompleted_fault (s : State) (d : Drawing) : (drawCompleted d s).fault = s.fault := rfl
@[simp] theorem drawCompleted_faultCode (s : State) (d : Drawing) : (drawCompleted d s).faultCode = s.faultCode := rfl
@[simp] theorem drawCompleted_faultPc (s : State) (d : Drawing) : (drawCompleted d s).faultPc = s.faultPc := rfl
@[simp] theorem drawCompleted_faultWord (s : State) (d : Drawing) : (drawCompleted d s).faultWord = s.faultWord := rfl
@[simp] theorem drawCompleted_faultInfo (s : State) (d : Drawing) : (drawCompleted d s).faultInfo = s.faultInfo := rfl
@[simp] theorem drawCompleted_params (s : State) (d : Drawing) : (drawCompleted d s).params = s.params := rfl
@[simp] theorem drawCompleted_freeIndex (s : State) (d : Drawing) : (drawCompleted d s).freeIndex = s.freeIndex := rfl
@[simp] theorem drawCompleted_hostCalls (s : State) (d : Drawing) : (drawCompleted d s).hostCalls = s.hostCalls := rfl

/-! ### `State.skipIf` -/

@[simp] theorem skipIf_v (c : Bool) (s : State) : (s.skipIf c).v = s.v := by cases c <;> rfl
@[simp] theorem skipIf_i (c : Bool) (s : State) : (s.skipIf c).i = s.i := by cases c <;> rfl
@[simp] theorem skipIf_pc (c : Bool) (s : State) : (s.skipIf c).pc = if c then s.pc + 4 else s.pc + 2 := by
  cases c <;> rfl
@[simp] theorem skipIf_stack (c : Bool) (s : State) : (s.skipIf c).stack = s.stack := by cases c <;> rfl
@[simp] theorem skipIf_sp (c : Bool) (s : State) : (s.skipIf c).sp = s.sp := by cases c <;> rfl
@[simp] theorem skipIf_mem (c : Bool) (s : State) : (s.skipIf c).mem = s.mem := by cases c <;> rfl
@[simp] theorem skipIf_fb (c : Bool) (s : State) : (s.skipIf c).fb = s.fb := by cases c <;> rfl
@[simp] theorem skipIf_dt (c : Bool) (s : State) : (s.skipIf c).dt = s.dt := by cases c <;> rfl
@[simp] theorem skipIf_st (c : Bool) (s : State) : (s.skipIf c).st = s.st := by cases c <;> rfl
@[simp] theorem skipIf_keys (c : Bool) (s : State) : (s.skipIf c).keys = s.keys := by cases c <;> rfl
@[simp] theorem skipIf_keyLatch (c : Bool) (s : State) : (s.skipIf c).keyLatch = s.keyLatch := by cases c <;> rfl
@[simp] theorem skipIf_vblank (c : Bool) (s : State) : (s.skipIf c).vblank = s.vblank := by cases c <;> rfl
@[simp] theorem skipIf_loaded (c : Bool) (s : State) : (s.skipIf c).loaded = s.loaded := by cases c <;> rfl
@[simp] theorem skipIf_fault (c : Bool) (s : State) : (s.skipIf c).fault = s.fault := by cases c <;> rfl
@[simp] theorem skipIf_faultCode (c : Bool) (s : State) : (s.skipIf c).faultCode = s.faultCode := by cases c <;> rfl
@[simp] theorem skipIf_faultPc (c : Bool) (s : State) : (s.skipIf c).faultPc = s.faultPc := by cases c <;> rfl
@[simp] theorem skipIf_faultWord (c : Bool) (s : State) : (s.skipIf c).faultWord = s.faultWord := by cases c <;> rfl
@[simp] theorem skipIf_faultInfo (c : Bool) (s : State) : (s.skipIf c).faultInfo = s.faultInfo := by cases c <;> rfl
@[simp] theorem skipIf_params (c : Bool) (s : State) : (s.skipIf c).params = s.params := by cases c <;> rfl
@[simp] theorem skipIf_freeIndex (c : Bool) (s : State) : (s.skipIf c).freeIndex = s.freeIndex := by cases c <;> rfl
@[simp] theorem skipIf_hostCalls (c : Bool) (s : State) : (s.skipIf c).hostCalls = s.hostCalls := by cases c <;> rfl

/-! ### Reads after updates -/

@[simp] theorem getV_setV_same (s : State) (x : Reg) (b : Byte) : (s.setV x b).getV x = b := by
  simp [State.getV]

theorem getV_setV_other (s : State) {x r : Reg} (b : Byte) (h : r ≠ x) :
    (s.setV x b).getV r = s.getV r := by
  simp only [State.getV, setV_v, Fin.getElem_fin]
  exact Vector.getElem_set_ne _ _ fun e => h (Fin.ext e.symm)

@[simp] theorem getV_setI (s : State) (a : Word) (r : Reg) : (s.setI a).getV r = s.getV r := rfl
@[simp] theorem getV_setPc (s : State) (a : Word) (r : Reg) : (s.setPc a).getV r = s.getV r := rfl
@[simp] theorem getV_advance (s : State) (r : Reg) : (s.advance).getV r = s.getV r := rfl
@[simp] theorem getV_raise (s : State) (c : FaultCause) (w : Word) (n : Nat) (r : Reg) : (raise c w n s).getV r = s.getV r := rfl
@[simp] theorem getV_raiseAt (s : State) (c : FaultCause) (j : Instr) (n : Nat) (r : Reg) : (raiseAt c j n s).getV r = s.getV r := rfl
@[simp] theorem getV_storeBytes (s : State) (a : Nat) (bs : List Byte) (r : Reg) : (s.storeBytes a bs).getV r = s.getV r := rfl
@[simp] theorem getV_skipIf (c : Bool) (s : State) (r : Reg) : (s.skipIf c).getV r = s.getV r := by cases c <;> rfl
@[simp] theorem readByte_setI (s : State) (a : Word) (b : Nat) : (s.setI a).readByte b = s.readByte b := rfl
@[simp] theorem readByte_setPc (s : State) (a : Word) (b : Nat) : (s.setPc a).readByte b = s.readByte b := rfl
@[simp] theorem readByte_advance (s : State) (b : Nat) : (s.advance).readByte b = s.readByte b := rfl
@[simp] theorem readByte_raise (s : State) (c : FaultCause) (w : Word) (n : Nat) (b : Nat) : (raise c w n s).readByte b = s.readByte b := rfl
@[simp] theorem readByte_raiseAt (s : State) (c : FaultCause) (j : Instr) (n : Nat) (b : Nat) : (raiseAt c j n s).readByte b = s.readByte b := rfl
@[simp] theorem readByte_setV (s : State) (x : Reg) (w : Byte) (b : Nat) : (s.setV x w).readByte b = s.readByte b := rfl
@[simp] theorem readByte_setResultAndFlag (s : State) (x : Reg) (w : Byte) (c : Bool) (b : Nat) : (s.setResultAndFlag x w c).readByte b = s.readByte b := rfl
@[simp] theorem readByte_drawCompleted (s : State) (d : Drawing) (b : Nat) : (drawCompleted d s).readByte b = s.readByte b := rfl
@[simp] theorem readByte_skipIf (c : Bool) (s : State) (b : Nat) : (s.skipIf c).readByte b = s.readByte b := by
  cases c <;> rfl

theorem getV_congr {s t : State} (h : t.v = s.v) (r : Reg) : t.getV r = s.getV r := by
  simp [State.getV, h]

theorem readByte_congr {s t : State} (hm : t.mem = s.mem) (hp : t.params = s.params) (a : Nat) :
    t.readByte a = s.readByte a := by
  simp [State.readByte, hm, hp]

end Sys2Proof.Machine
end

