-- ==== Sys2Proof/Laws/Memory.lean ====
section
/-! SUPPORT. The laws of memory: a read after a write, the canonical form kept by every operation, and equal
reads make equal canonical memories. -/

namespace Sys2Proof.Machine

variable {font : Vector Byte 80}

@[simp] theorem Memory.read_nil (a : Nat) : Memory.read font [] a = unlistedByte font a := rfl

theorem Memory.read_cons (b : Nat) (w : Byte) (m : Memory) (a : Nat) :
    Memory.read font ((b, w) :: m) a = if a = b then w else Memory.read font m a := rfl

/-- An address that no entry lists reads as after reset. -/
theorem Memory.read_unlisted (m : Memory) (a : Nat) (h : ∀ p ∈ m, p.1 ≠ a) :
    Memory.read font m a = unlistedByte font a := by
  induction m with
  | nil => rfl
  | cons p m ih =>
    obtain ⟨b, w⟩ := p
    have hb : a ≠ b := fun e => h (b, w) (by simp) e.symm
    simp [Memory.read_cons, hb, ih fun p hp => h p (by simp [hp])]

theorem Memory.rising_cons {b : Nat} {w : Byte} {m : Memory}
    (h : ((b, w) :: m).Pairwise (fun p q => p.1 < q.1)) :
    (∀ p ∈ m, b < p.1) ∧ m.Pairwise (fun p q => p.1 < q.1) := by
  simpa using h

/-- The read of `consUnlessReset` where no later entry lists its address. -/
theorem Memory.read_consUnlessReset (m : Memory) (a b : Nat) (v : Byte) (h : ∀ p ∈ m, p.1 ≠ a) :
    Memory.read font (consUnlessReset font a v m) b = if b = a then v else Memory.read font m b := by
  unfold consUnlessReset
  split
  · next hv =>
    split
    · next hb => rw [hb, Memory.read_unlisted m a h, hv]
    · rfl
  · rfl

/-- One write: its own address reads the new byte, every other address reads as before. -/
theorem Memory.read_write (m : Memory) (hm : m.Pairwise (fun p q => p.1 < q.1)) (a b : Nat) (v : Byte) :
    Memory.read font (Memory.write font m a v) b = if b = a then v else Memory.read font m b := by
  induction m with
  | nil => exact Memory.read_consUnlessReset [] a b v (by simp)
  | cons p m ih =>
    obtain ⟨c, w⟩ := p
    obtain ⟨hlo, hrest⟩ := Memory.rising_cons hm
    unfold Memory.write
    split
    · next hac =>
      refine Memory.read_consUnlessReset _ a b v fun p hp => ?_
      rcases List.mem_cons.1 hp with rfl | hp
      · exact (Nat.ne_of_lt hac).symm
      · have := hlo p hp; omega
    · split
      · next hac =>
        subst hac
        rw [Memory.read_consUnlessReset m a b v fun p hp => by have := hlo p hp; omega]
        split <;> simp [Memory.read_cons, *]
      · next hlt hne =>
        rw [Memory.read_cons, ih hrest, Memory.read_cons]
        split
        · next hb => rw [if_neg (by omega)]
        · rfl

/-- A write leaves every other address alone, in any memory. -/
theorem Memory.read_write_other (m : Memory) {a b : Nat} (v : Byte) (h : b ≠ a) :
    Memory.read font (Memory.write font m a v) b = Memory.read font m b := by
  have hc : ∀ m : Memory, Memory.read font (consUnlessReset font a v m) b = Memory.read font m b := by
    intro m
    unfold consUnlessReset
    split
    · rfl
    · rw [Memory.read_cons, if_neg h]
  induction m with
  | nil => exact hc []
  | cons p m ih =>
    obtain ⟨c, w⟩ := p
    unfold Memory.write
    split
    · exact hc _
    · split
      · next hac => rw [hc m, Memory.read_cons, if_neg (by omega)]
      · rw [Memory.read_cons, Memory.read_cons, ih]

/-- Every entry of a written memory is the new one or an old one. -/
theorem Memory.mem_write {m : Memory} {a : Nat} {v : Byte} {p : Host.Cell}
    (h : p ∈ Memory.write font m a v) : (p = (a, v) ∧ v ≠ unlistedByte font a) ∨ p ∈ m := by
  induction m with
  | nil =>
    simp only [Memory.write, consUnlessReset] at h
    split at h
    · simp at h
    · next hv => exact .inl ⟨by simpa using h, hv⟩
  | cons q m ih =>
    obtain ⟨c, w⟩ := q
    simp only [Memory.write, consUnlessReset] at h
    split at h
    · split at h
      · exact .inr h
      · next hv => rcases List.mem_cons.1 h with rfl | h; exacts [.inl ⟨rfl, hv⟩, .inr h]
    · split at h
      · split at h
        · exact .inr (List.mem_cons_of_mem _ h)
        · next hv =>
          rcases List.mem_cons.1 h with rfl | h
          exacts [.inl ⟨rfl, hv⟩, .inr (List.mem_cons_of_mem _ h)]
      · rcases List.mem_cons.1 h with rfl | h
        · exact .inr (by simp)
        · rcases ih h with h | h
          exacts [.inl h, .inr (List.mem_cons_of_mem _ h)]

theorem Memory.rising_write (m : Memory) (hm : m.Pairwise (fun p q => p.1 < q.1)) (a : Nat) (v : Byte) :
    (Memory.write font m a v).Pairwise (fun p q => p.1 < q.1) := by
  induction m with
  | nil => simp only [Memory.write, consUnlessReset]; split <;> simp
  | cons q m ih =>
    obtain ⟨c, w⟩ := q
    obtain ⟨hlo, hrest⟩ := Memory.rising_cons hm
    simp only [Memory.write, consUnlessReset]
    split
    · next hac =>
      split
      · exact hm
      · refine List.pairwise_cons.2 ⟨fun p hp => ?_, hm⟩
        rcases List.mem_cons.1 hp with rfl | hp
        exacts [hac, Nat.lt_trans hac (hlo p hp)]
    · split
      · next hac =>
        subst hac
        split
        exacts [hrest, List.pairwise_cons.2 ⟨hlo, hrest⟩]
      · next hlt hne =>
        refine List.pairwise_cons.2 ⟨fun p hp => ?_, ih hrest⟩
        rcases Memory.mem_write hp with ⟨rfl, -⟩ | hp
        · simp only; omega
        · exact hlo p hp

/-- The reset memory has the canonical form. -/
theorem Memory.wf_nil : Memory.wf font [] := ⟨List.Pairwise.nil, fun _ h => nomatch h⟩

/-- A write within the memory keeps the canonical form. -/
theorem Memory.wf_write {m : Memory} (hm : m.wf font) {a : Nat} (ha : a < 4096) (v : Byte) :
    (Memory.write font m a v).wf font := by
  refine ⟨Memory.rising_write m hm.1 a v, fun p hp => ?_⟩
  rcases Memory.mem_write hp with ⟨rfl, hv⟩ | hp
  exacts [⟨ha, hv⟩, hm.2 p hp]

/-- A write of consecutive bytes within the memory keeps the canonical form. -/
theorem Memory.wf_writeBytes {m : Memory} (hm : m.wf font) {a : Nat} (bs : List Byte)
    (ha : a + bs.length ≤ 4096) : (Memory.writeBytes font m a bs).wf font := by
  induction bs generalizing m a with
  | nil => exact hm
  | cons b bs ih =>
    simp only [List.length_cons] at ha
    exact ih (Memory.wf_write hm (by omega) b) (by omega)

theorem Memory.rising_writeBytes {m : Memory} (hm : m.Pairwise (fun p q => p.1 < q.1)) (a : Nat)
    (bs : List Byte) : (Memory.writeBytes font m a bs).Pairwise (fun p q => p.1 < q.1) := by
  induction bs generalizing m a with
  | nil => exact hm
  | cons b bs ih => exact ih (Memory.rising_write m hm a b) (a + 1)

/-- Consecutive bytes written: an address among them reads its byte, every other address reads as before. -/
theorem Memory.read_writeBytes {m : Memory} (hm : m.Pairwise (fun p q => p.1 < q.1)) (a : Nat)
    (bs : List Byte) (b : Nat) :
    Memory.read font (Memory.writeBytes font m a bs) b =
      if h : a ≤ b ∧ b - a < bs.length then bs[b - a]'h.2 else Memory.read font m b := by
  induction bs generalizing m a with
  | nil => simp [Memory.writeBytes]
  | cons v vs ih =>
    rw [Memory.writeBytes, ih (Memory.rising_write m hm a v), Memory.read_write m hm]
    rcases Nat.lt_trichotomy b a with h | h | h
    · rw [dif_neg (by omega), dif_neg (by omega), if_neg (by omega)]
    · subst h
      rw [dif_neg (by omega), if_pos rfl, dif_pos (by simp)]
      simp
    · obtain ⟨k, rfl⟩ : ∃ k, b = a + (k + 1) := ⟨b - a - 1, by omega⟩
      have h1 : a + (k + 1) - (a + 1) = k := by omega
      have h2 : a + (k + 1) - a = k + 1 := by omega
      simp only [h1, h2, List.length_cons, List.getElem_cons_succ]
      by_cases hk : k < vs.length
      · rw [dif_pos ⟨by omega, hk⟩, dif_pos ⟨by omega, by omega⟩]
      · rw [dif_neg (by omega), dif_neg (by omega), if_neg (by omega)]

/-- Consecutive bytes written leave every address outside them alone, in any memory. -/
theorem Memory.read_writeBytes_other (m : Memory) (a : Nat) (bs : List Byte) (b : Nat)
    (h : b < a ∨ a + bs.length ≤ b) :
    Memory.read font (Memory.writeBytes font m a bs) b = Memory.read font m b := by
  induction bs generalizing m a with
  | nil => rfl
  | cons v vs ih =>
    simp only [List.length_cons] at h
    rw [Memory.writeBytes, ih _ _ (by omega), Memory.read_write_other m v (by omega)]

/-! ### The same at the level of the state -/

/-- One lemma for every store: what each address reads afterwards. -/
theorem readByte_storeBytes (s : State) (hm : s.mem.wf s.params.font) (a : Nat) (bs : List Byte) (b : Nat) :
    (s.storeBytes a bs).readByte b =
      if h : a ≤ b ∧ b - a < bs.length then bs[b - a]'h.2 else s.readByte b :=
  Memory.read_writeBytes hm.1 a bs b

/-- A store leaves every byte outside it alone. -/
theorem readByte_storeBytes_other (s : State) (a : Nat) (bs : List Byte) (b : Nat)
    (h : b < a ∨ a + bs.length ≤ b) : (s.storeBytes a bs).readByte b = s.readByte b :=
  Memory.read_writeBytes_other s.mem a bs b h

theorem wf_storeBytes (s : State) (hm : s.mem.wf s.params.font) (a : Nat) (bs : List Byte)
    (ha : a + bs.length ≤ 4096) : (s.storeBytes a bs).mem.wf (s.storeBytes a bs).params.font :=
  Memory.wf_writeBytes hm bs ha

@[simp] theorem length_loadBytes (s : State) (a n : Nat) : (s.loadBytes a n).length = n := by
  simp [State.loadBytes]

@[simp] theorem getElem_loadBytes (s : State) (a n k : Nat) (h : k < (s.loadBytes a n).length) :
    (s.loadBytes a n)[k] = s.readByte (a + k) := by
  simp [State.loadBytes]

/-- A listed address of a canonical memory does not read as after reset. -/
theorem Memory.read_head {b : Nat} {w : Byte} {m : Memory} (h : Memory.wf font ((b, w) :: m)) :
    Memory.read font ((b, w) :: m) b ≠ unlistedByte font b := by
  rw [Memory.read_cons, if_pos rfl]
  exact (h.2 (b, w) (by simp)).2

theorem Memory.wf_tail {p : Host.Cell} {m : Memory} (h : Memory.wf font (p :: m)) : Memory.wf font m :=
  ⟨(List.pairwise_cons.1 h.1).2, fun q hq => h.2 q (List.mem_cons_of_mem _ hq)⟩

end Sys2Proof.Machine
end

