-- ==== Sys2Proof/Laws/Display.lean ====
section
/-! SUPPORT. What a draw does to each cell and to the collision flag (43_display.md R151, R153), from one pixel
to one row to the whole sprite. -/

namespace Sys2Proof.Machine

/-! ### Cells -/

@[simp] theorem cellAt_blank (cx cy : Nat) : cellAt blankFramebuffer cx cy = false := by
  simp only [cellAt, blankFramebuffer]
  split <;> simp

/-- Two framebuffers with the same 2048 cells are equal. -/
theorem framebuffer_ext {f g : Framebuffer}
    (h : ∀ cx cy : Nat, cx < 64 → cy < 32 → cellAt f cx cy = cellAt g cx cy) : f = g := by
  apply Vector.ext
  intro cy hcy
  apply BitVec.eq_of_getLsbD_eq
  intro cx hcx
  simpa [cellAt, hcy] using h cx cy hcx hcy

/-- A flip changes its own cell and no other. -/
theorem cellAt_flipCell (fb : Framebuffer) {a b cx cy : Nat} (ha : a < 64) (hb : b < 32) (hx : cx < 64)
    (hy : cy < 32) :
    cellAt (flipCell fb a b) cx cy = (cellAt fb cx cy ^^ decide (cx = a ∧ cy = b)) := by
  simp only [cellAt, flipCell, hb, hy, dif_pos]
  by_cases hcy : cy = b
  · subst hcy
    have h1 : (1#64 <<< a).getLsbD cx = decide (cx = a) := by
      rw [BitVec.getLsbD_shiftLeft, BitVec.getLsbD_one]
      by_cases h : cx = a
      · subst h; simp [hx]
      · rcases Nat.lt_or_gt_of_ne h with h' | h'
        · simp [hx, h, h']
        · have : ¬ (cx - a = 0) := by omega
          simp [hx, h, this]
    simp [h1]
  · rw [Vector.getElem_set_ne _ _ (Ne.symm hcy)]
    simp [hcy]

/-! ### One row -/

/-- Whether the row byte `b` at start column `x0` has a 1 at screen column `cx`. -/
def rowPixel (b : Byte) (x0 cx : Nat) : Bool := decide (x0 ≤ cx ∧ cx < x0 + 8) && b.getLsbD (7 - (cx - x0))

/-- The first `k` pixels of a row. -/
theorem drawPixels_spec (b : Byte) (x0 cy : Nat) (hcy : cy < 32) (d : Drawing) (k : Nat) (hk : k ≤ 8) :
    (∀ ax ay : Nat, ax < 64 → ay < 32 →
      cellAt ((List.range k).foldl (drawPixel b x0 cy) d).fb ax ay =
        (cellAt d.fb ax ay ^^ decide (ay = cy ∧ rowPixel b x0 ax = true ∧ ax < x0 + k))) ∧
    (((List.range k).foldl (drawPixel b x0 cy) d).collision = true ↔
      d.collision = true ∨
        ∃ ax, ax < 64 ∧ ax < x0 + k ∧ rowPixel b x0 ax = true ∧ cellAt d.fb ax cy = true) := by
  induction k with
  | zero =>
    have hnone : ∀ ax, ¬ (rowPixel b x0 ax = true ∧ ax < x0 + 0) := by
      rintro ax ⟨h, h'⟩
      simp only [rowPixel, Bool.and_eq_true, decide_eq_true_eq] at h
      omega
    refine ⟨fun ax ay _ _ => ?_, ?_⟩
    · have : ¬ (ay = cy ∧ rowPixel b x0 ax = true ∧ ax < x0 + 0) := fun h => hnone ax h.2
      rw [decide_eq_false this, Bool.xor_false]
      rfl
    · constructor
      · exact Or.inl
      · rintro (h | ⟨ax, _, h1, h2, _⟩)
        exacts [h, absurd ⟨h2, h1⟩ (hnone ax)]
  | succ k ih =>
    obtain ⟨ihc, ihk⟩ := ih (by omega)
    rw [List.range_succ, List.foldl_append, List.foldl_cons, List.foldl_nil]
    generalize (List.range k).foldl (drawPixel b x0 cy) d = e at ihc ihk ⊢
    have hpix : rowPixel b x0 (x0 + k) = b.getLsbD (7 - k) := by
      have h1 : x0 + k - x0 = k := by omega
      have h2 : k < 8 := by omega
      simp [rowPixel, h1, h2]
    unfold drawPixel
    by_cases hc : x0 + k ≤ 63 ∧ b.getLsbD (7 - k) = true
    · rw [if_pos hc]
      have hx : x0 + k < 64 := by omega
      have hold : cellAt e.fb (x0 + k) cy = cellAt d.fb (x0 + k) cy := by
        rw [ihc (x0 + k) cy hx hcy]; simp
      refine ⟨fun ax ay hax hay => ?_, ?_⟩
      · rw [cellAt_flipCell e.fb hx hcy hax hay, ihc ax ay hax hay, Bool.xor_assoc]
        congr 1
        by_cases hay' : ay = cy
        · by_cases hax' : ax = x0 + k
          · subst hax'
            simp [hay', hpix, hc.2]
          · have : ax < x0 + (k + 1) ↔ ax < x0 + k := by omega
            simp [hax', this]
        · simp [hay']
      · simp only [Bool.or_eq_true, ihk, hold]
        constructor
        · rintro ((h | ⟨ax, h1, h2, h3, h4⟩) | h)
          · exact .inl h
          · exact .inr ⟨ax, h1, by omega, h3, h4⟩
          · exact .inr ⟨x0 + k, hx, by omega, by rw [hpix]; exact hc.2, h⟩
        · rintro (h | ⟨ax, h1, h2, h3, h4⟩)
          · exact .inl (.inl h)
          · by_cases hax' : ax = x0 + k
            · subst hax'; exact .inr h4
            · exact .inl (.inr ⟨ax, h1, by omega, h3, h4⟩)
    · rw [if_neg hc]
      have hno : ∀ ax, ax < 64 → rowPixel b x0 ax = true → (ax < x0 + (k + 1) ↔ ax < x0 + k) := by
        intro ax hax hp
        constructor
        · intro h
          by_contra hge
          obtain rfl : ax = x0 + k := by omega
          exact hc ⟨by omega, by rwa [hpix] at hp⟩
        · omega
      refine ⟨fun ax ay hax hay => ?_, ?_⟩
      · rw [ihc ax ay hax hay]
        congr 1
        by_cases hp : rowPixel b x0 ax = true
        · simp [hno ax hax hp]
        · simp [hp]
      · rw [ihk]
        constructor
        · rintro (h | ⟨ax, h1, h2, h3, h4⟩)
          exacts [.inl h, .inr ⟨ax, h1, (hno ax h1 h3).2 h2, h3, h4⟩]
        · rintro (h | ⟨ax, h1, h2, h3, h4⟩)
          exacts [.inl h, .inr ⟨ax, h1, (hno ax h1 h3).1 h2, h3, h4⟩]

theorem rowPixel_lt {b : Byte} {x0 cx : Nat} (h : rowPixel b x0 cx = true) : x0 ≤ cx ∧ cx < x0 + 8 := by
  simp only [rowPixel, Bool.and_eq_true, decide_eq_true_eq] at h
  exact h.1

/-- One row: each cell of the screen. -/
theorem drawRow_cell (b : Byte) (x0 cy : Nat) (d : Drawing) {ax ay : Nat} (hax : ax < 64) (hay : ay < 32) :
    cellAt (drawRow b x0 cy d).fb ax ay = (cellAt d.fb ax ay ^^ decide (ay = cy ∧ rowPixel b x0 ax = true)) := by
  unfold drawRow
  split
  · next hcy =>
    rw [(drawPixels_spec b x0 cy (by omega) d 8 (by omega)).1 ax ay hax hay]
    congr 1
    by_cases hp : rowPixel b x0 ax = true
    · simp [hp, (rowPixel_lt hp).2]
    · simp [hp]
  · next hcy =>
    have : ay ≠ cy := by omega
    simp [this]

/-- One row: the collision flag. -/
theorem drawRow_collision (b : Byte) (x0 cy : Nat) (d : Drawing) :
    (drawRow b x0 cy d).collision = true ↔
      d.collision = true ∨ ∃ ax, ax < 64 ∧ cy < 32 ∧ rowPixel b x0 ax = true ∧ cellAt d.fb ax cy = true := by
  unfold drawRow
  split
  · next hcy =>
    rw [(drawPixels_spec b x0 cy (by omega) d 8 (by omega)).2]
    constructor
    · rintro (h | ⟨ax, h1, h2, h3, h4⟩)
      exacts [.inl h, .inr ⟨ax, h1, by omega, h3, h4⟩]
    · rintro (h | ⟨ax, h1, h2, h3, h4⟩)
      exacts [.inl h, .inr ⟨ax, h1, (rowPixel_lt h3).2, h3, h4⟩]
  · next hcy =>
    constructor
    · exact Or.inl
    · rintro (h | ⟨_, _, h, _⟩)
      exacts [h, by omega]

/-! ### The sprite -/

/-- Whether the sprite `bs` drawn at column `x0` and row `y0` has a 1 at screen cell (`cx`, `cy`): the set S of R153. -/
def spritePixel (bs : List Byte) (x0 y0 cx cy : Nat) : Prop :=
  ∃ r, ∃ h : r < bs.length, cy = y0 + r ∧ rowPixel bs[r] x0 cx = true

theorem spritePixel_nil (x0 y0 cx cy : Nat) : ¬ spritePixel [] x0 y0 cx cy := by
  rintro ⟨r, h, _⟩
  simp at h

theorem spritePixel_cons (b : Byte) (bs : List Byte) (x0 y0 cx cy : Nat) :
    spritePixel (b :: bs) x0 y0 cx cy ↔
      (cy = y0 ∧ rowPixel b x0 cx = true) ∨ spritePixel bs x0 (y0 + 1) cx cy := by
  constructor
  · rintro ⟨r, h, hcy, hp⟩
    cases r with
    | zero => exact .inl ⟨by omega, hp⟩
    | succ r => exact .inr ⟨r, by simpa using h, by omega, hp⟩
  · rintro (⟨hcy, hp⟩ | ⟨r, h, hcy, hp⟩)
    · exact ⟨0, by simp, by omega, hp⟩
    · exact ⟨r + 1, by simpa using h, by omega, hp⟩

theorem spritePixel_below {bs : List Byte} {x0 y0 cx cy : Nat} (h : spritePixel bs x0 y0 cx cy) : y0 ≤ cy := by
  obtain ⟨r, -, rfl, -⟩ := h
  omega

open Classical in
/-- The whole sprite: a cell of the screen flips where the sprite has a 1, and only there. -/
theorem drawRows_cell (bs : List Byte) (x0 y0 : Nat) (d : Drawing) {ax ay : Nat} (hax : ax < 64) (hay : ay < 32) :
    cellAt (drawRows bs x0 y0 d).fb ax ay = (cellAt d.fb ax ay ^^ decide (spritePixel bs x0 y0 ax ay)) := by
  induction bs generalizing y0 d with
  | nil => simp [drawRows, spritePixel_nil]
  | cons b bs ih =>
    rw [drawRows, ih, drawRow_cell b x0 y0 d hax hay, Bool.xor_assoc]
    congr 1
    by_cases hb : spritePixel bs x0 (y0 + 1) ax ay
    · have := spritePixel_below hb
      have hne : ay ≠ y0 := by omega
      simp [spritePixel_cons, hb, hne]
    · simp [spritePixel_cons, hb]

open Classical in
theorem drawRows_cell_covered {bs : List Byte} {x0 y0 : Nat} (d : Drawing) {ax ay : Nat} (hax : ax < 64)
    (hay : ay < 32) (h : spritePixel bs x0 y0 ax ay) :
    cellAt (drawRows bs x0 y0 d).fb ax ay = !cellAt d.fb ax ay := by
  rw [drawRows_cell bs x0 y0 d hax hay, decide_eq_true h, Bool.xor_true]

open Classical in
theorem drawRows_cell_uncovered {bs : List Byte} {x0 y0 : Nat} (d : Drawing) {ax ay : Nat} (hax : ax < 64)
    (hay : ay < 32) (h : ¬ spritePixel bs x0 y0 ax ay) :
    cellAt (drawRows bs x0 y0 d).fb ax ay = cellAt d.fb ax ay := by
  rw [drawRows_cell bs x0 y0 d hax hay, decide_eq_false h, Bool.xor_false]

/-- The whole sprite: the collision flag says that a set cell of the screen was cleared. -/
theorem drawRows_collision (bs : List Byte) (x0 y0 : Nat) (d : Drawing) :
    (drawRows bs x0 y0 d).collision = true ↔
      d.collision = true ∨
        ∃ ax ay, ax < 64 ∧ ay < 32 ∧ spritePixel bs x0 y0 ax ay ∧ cellAt d.fb ax ay = true := by
  induction bs generalizing y0 d with
  | nil => simp [drawRows, spritePixel_nil]
  | cons b bs ih =>
    rw [drawRows, ih, drawRow_collision]
    constructor
    · rintro ((h | ⟨ax, h1, h2, h3, h4⟩) | ⟨ax, ay, h1, h2, h3, h4⟩)
      · exact .inl h
      · exact .inr ⟨ax, y0, h1, h2, (spritePixel_cons ..).2 (.inl ⟨rfl, h3⟩), h4⟩
      · refine .inr ⟨ax, ay, h1, h2, (spritePixel_cons ..).2 (.inr h3), ?_⟩
        have := spritePixel_below h3
        have hne : ay ≠ y0 := by omega
        simpa [drawRow_cell b x0 y0 d h1 h2, hne] using h4
    · rintro (h | ⟨ax, ay, h1, h2, h3, h4⟩)
      · exact .inl (.inl h)
      · rcases (spritePixel_cons ..).1 h3 with ⟨rfl, hp⟩ | hp
        · exact .inl (.inr ⟨ax, h1, h2, hp, h4⟩)
        · refine .inr ⟨ax, ay, h1, h2, hp, ?_⟩
          have := spritePixel_below hp
          have hne : ay ≠ y0 := by omega
          simpa [drawRow_cell b x0 y0 d h1 h2, hne] using h4

end Sys2Proof.Machine
end

