-- ==== Sys2Proof/Laws/Ops.lean ====
section
/-! SUPPORT. What each shared operation can do, once: the stack controller, the range check, the operand forms
and the flag computations. -/

namespace Sys2Proof.Machine

/-! ### Stack controller (R27) -/

theorem push_of_lt (s : State) (a : Word) (h : s.sp.val < 16) :
    s.push a = some { s with stack := s.stack.set s.sp.val a h, sp := ⟨s.sp.val + 1, Nat.succ_lt_succ h⟩ } :=
  dif_pos h

theorem push_full (s : State) (a : Word) (h : ¬ s.sp.val < 16) : s.push a = none := dif_neg h

/-- A push that succeeds wrote the slot at `SP` and counted it, and nothing else. -/
theorem push_cases {s t : State} {a : Word} (h : s.push a = some t) :
    ∃ hlt : s.sp.val < 16,
      t = { s with stack := s.stack.set s.sp.val a hlt, sp := ⟨s.sp.val + 1, Nat.succ_lt_succ hlt⟩ } := by
  unfold State.push at h
  split at h
  · next hlt => exact ⟨hlt, (Option.some.inj h).symm⟩
  · cases h

theorem pop_empty (s : State) (h : s.sp.val = 0) : s.pop = none := dif_neg (by omega)

theorem pop_of_pos (s : State) (h : 0 < s.sp.val) :
    s.pop = some (s.stack[s.sp.val - 1]'(by omega), { s with sp := ⟨s.sp.val - 1, by omega⟩ }) := dif_pos h

/-- A pop that succeeds counted the slot down, and nothing else. -/
theorem pop_cases {s t : State} {a : Word} (h : s.pop = some (a, t)) :
    ∃ hpos : 0 < s.sp.val,
      a = s.stack[s.sp.val - 1]'(by omega) ∧ t = { s with sp := ⟨s.sp.val - 1, by omega⟩ } := by
  unfold State.pop at h
  split at h
  · next hpos =>
    have e := Option.some.inj h
    exact ⟨hpos, (congrArg Prod.fst e).symm, (congrArg Prod.snd e).symm⟩
  · cases h

/-! ### Range check (R56) -/

theorem rangeChecked_ok {i : Instr} {top : Nat} {s done : State} (h : top ≤ 4095) :
    rangeChecked i top s done = done := if_neg (Nat.not_lt.2 h)

theorem rangeChecked_above {i : Instr} {top : Nat} {s done : State} (h : 4095 < top) :
    rangeChecked i top s done = raiseAt .dataOutOfRange i top s := if_pos h

/-- A range check either raises the fault or lets the instruction through. -/
theorem rangeChecked_cases (i : Instr) (top : Nat) (s done : State) :
    (4095 < top ∧ rangeChecked i top s done = raiseAt .dataOutOfRange i top s) ∨
    (top ≤ 4095 ∧ rangeChecked i top s done = done) := by
  rcases Nat.lt_or_ge 4095 top with h | h
  exacts [.inl ⟨h, rangeChecked_above h⟩, .inr ⟨h, rangeChecked_ok h⟩]

/-! ### Saturation (R174) -/

theorem saturate16_word (a : Word) : saturate16 a.toNat = a := by
  have := a.isLt
  apply BitVec.eq_of_toNat_eq
  simp only [saturate16, BitVec.toNat_ofNat]
  omega

theorem saturate16_toNat (n : Nat) : (saturate16 n).toNat = min n 65535 := by
  simp only [saturate16, BitVec.toNat_ofNat]
  omega

/-! ### Operands -/

@[simp] theorem effectiveAddress_eq (s : State) (k : Nat) : effectiveAddress s k = s.i.toNat + k := rfl

theorem addressOf_eq (nnn : Addr12) : addressOf nnn = nnn.setWidth 16 := by
  apply BitVec.eq_of_toNat_eq
  simp [addressOf]

theorem offsetTarget_eq (nnn : Addr12) (s : State) :
    offsetTarget nnn s = nnn.setWidth 16 + (s.getV 0).setWidth 16 := by
  apply BitVec.eq_of_toNat_eq
  simp [offsetTarget]

theorem offsetTarget_toNat (nnn : Addr12) (s : State) :
    (offsetTarget nnn s).toNat = nnn.toNat + (s.getV 0).toNat := by
  have := nnn.isLt
  have := (s.getV 0).isLt
  simp only [offsetTarget, BitVec.toNat_ofNat]
  omega

theorem glyphAddress_eq (b : Byte) : glyphAddress b = b.setWidth 16 * 5 := by
  apply BitVec.eq_of_toNat_eq
  simp [glyphAddress]

@[simp] theorem length_bulkBytes (x : Reg) (s : State) : (bulkBytes x s).length = x.val + 1 := by
  simp only [bulkBytes, List.length_take, Vector.length_toList]
  omega

theorem getElem_bulkBytes (x : Reg) (s : State) (k : Nat) (h : k < (bulkBytes x s).length) :
    (bulkBytes x s)[k] = s.getV ⟨k, by simp at h; omega⟩ := by
  simp [bulkBytes, State.getV]

theorem bulkLoaded_getElem (x k : Reg) (s : State) :
    (bulkLoaded x s)[k] = if k ≤ x then s.readByte (s.i.toNat + k.val) else s.getV k := by
  simp [bulkLoaded, effectiveAddress]

theorem keyIndex_cases (x : Reg) (s : State) :
    (∃ h : (s.getV x).toNat < 16, keyIndex x s = some ⟨(s.getV x).toNat, h⟩) ∨
    (16 ≤ (s.getV x).toNat ∧ keyIndex x s = none) := by
  rcases Nat.lt_or_ge (s.getV x).toNat 16 with h | h
  exacts [.inl ⟨h, dif_pos h⟩, .inr ⟨h, dif_neg (by omega)⟩]

/-- No key is down, or the key found is down and every lower one is up (R162). -/
theorem lowestKeyDown_cases (s : State) :
    (lowestKeyDown s = none ∧ ∀ k, s.keyDown k = false) ∨
    ∃ k, lowestKeyDown s = some k ∧ s.keyDown k = true ∧ ∀ j < k, s.keyDown j = false := by
  cases h : lowestKeyDown s with
  | none =>
    refine .inl ⟨rfl, fun k => ?_⟩
    have := List.find?_eq_none.1 h k (List.mem_finRange k)
    simpa using this
  | some k =>
    refine .inr ⟨k, rfl, by simpa using List.find?_some h, fun j hj => ?_⟩
    obtain ⟨-, as, bs, hab, has⟩ := List.find?_eq_some_iff_append.1 h
    have hlt : ∀ y ∈ bs, k < y := by
      have hs : (List.finRange 16).Pairwise (· < ·) := List.pairwise_lt_finRange 16
      rw [hab] at hs
      exact (List.pairwise_cons.1 (List.pairwise_append.1 hs).2.1).1
    have hmem : j ∈ as ++ k :: bs := hab ▸ List.mem_finRange j
    rcases List.mem_append.1 hmem with hj' | hj'
    · simpa using has j hj'
    · rcases List.mem_cons.1 hj' with rfl | hj'
      · exact absurd hj (lt_irrefl _)
      · exact absurd (hlt j hj') (not_lt_of_gt hj)

/-! ### Results and flags (R119) -/

theorem sumByte_eq (a b : Byte) : sumByte a b = a + b := by
  apply BitVec.eq_of_toNat_eq
  simp [sumByte]

theorem differenceByte_eq (a b : Byte) : differenceByte a b = a - b := by
  have := a.isLt
  have := b.isLt
  apply BitVec.eq_of_toNat_eq
  simp only [differenceByte, BitVec.toNat_ofNat, BitVec.toNat_sub]
  omega

theorem halfByte_eq (a : Byte) : halfByte a = a >>> 1 := by
  have := a.isLt
  apply BitVec.eq_of_toNat_eq
  simp only [halfByte, BitVec.toNat_ofNat, BitVec.toNat_ushiftRight, Nat.shiftRight_eq_div_pow]
  omega

theorem doubleByte_eq (a : Byte) : doubleByte a = a <<< 1 := by
  apply BitVec.eq_of_toNat_eq
  simp only [doubleByte, BitVec.toNat_ofNat, BitVec.toNat_shiftLeft, Nat.shiftLeft_eq]
  omega

/-- The three digits of a byte, read as a decimal number, are the byte (R143). -/
theorem bcdDigits_sum (b : Byte) :
    b.toNat = 100 * (b.toNat / 100) + 10 * (b.toNat / 10 % 10) + b.toNat % 10 := by omega

theorem flagByte_carryFlag (a b : Byte) :
    flagByte (carryFlag a b) = if 255 < a.toNat + b.toNat then 1 else 0 := by
  simp [flagByte, carryFlag]

theorem flagByte_notBorrowFlag (a b : Byte) : flagByte (notBorrowFlag a b) = if b ≤ a then 1 else 0 := by
  simp [flagByte, notBorrowFlag, BitVec.le_def]

theorem flagByte_eq (c : Bool) : flagByte c = if c then 1 else 0 := rfl

end Sys2Proof.Machine
end

