-- ==== Sys2Proof/Laws/PerInstr.lean ====
section
/-! SUPPORT. The family `TableRow`, per instruction: the encoded word lies in a row of the opcode map (R74),
and that row builds the instruction back from the word. -/

namespace Sys2Proof.Laws.TableRow

/-- Some row of the opcode map matches the encoded word and reads the instruction from it. -/
def Statement (i : Instr) : Prop :=
  i.WellFormed → ∃ row ∈ opcodeMap, encode i &&& row.mask = row.value ∧ row.build (encode i) = i

/-- A row found by its place in the map. -/
theorem of_row {i : Instr} (k : Fin 34)
    (h : i.WellFormed → encode i &&& (opcodeMap[k]).mask = (opcodeMap[k]).value ∧
      (opcodeMap[k]).build (encode i) = i) : Statement i :=
  fun wf => ⟨opcodeMap[k], List.getElem_mem _, h wf⟩

theorem cls : Statement .cls := of_row 0 (by decide)

theorem ret : Statement .ret := of_row 1 (by decide)

theorem jp (nnn : Addr12) : Statement (.jp nnn) := of_row 2 fun _ =>
  ⟨packNNN_and (by decide) nnn.isLt, congrArg Instr.jp (fieldNNN_packNNN_addr nnn (by decide))⟩

theorem call (nnn : Addr12) : Statement (.call nnn) := of_row 3 fun _ =>
  ⟨packNNN_and (by decide) nnn.isLt, congrArg Instr.call (fieldNNN_packNNN_addr nnn (by decide))⟩

theorem seImm (x : Reg) (nn : Byte) : Statement (.seImm x nn) := of_row 4 fun _ =>
  ⟨packXNN_and_op x (by decide) nn.isLt,
    congr (congrArg Instr.seImm (fieldX_packXNN x (by decide) nn.isLt)) (fieldNN_packXNN_imm x nn (by decide))⟩

theorem sneImm (x : Reg) (nn : Byte) : Statement (.sneImm x nn) := of_row 5 fun _ =>
  ⟨packXNN_and_op x (by decide) nn.isLt,
    congr (congrArg Instr.sneImm (fieldX_packXNN x (by decide) nn.isLt)) (fieldNN_packXNN_imm x nn (by decide))⟩

theorem seReg (x y : Reg) : Statement (.seReg x y) := of_row 6 fun _ =>
  ⟨packXYN_and_opN x y (by decide) (by decide),
    congr (congrArg Instr.seReg (fieldX_packXYN x y (by decide) (by decide))) (fieldY_packXYN x y (by decide) (by decide))⟩

theorem ldImm (x : Reg) (nn : Byte) : Statement (.ldImm x nn) := of_row 7 fun _ =>
  ⟨packXNN_and_op x (by decide) nn.isLt,
    congr (congrArg Instr.ldImm (fieldX_packXNN x (by decide) nn.isLt)) (fieldNN_packXNN_imm x nn (by decide))⟩

theorem addImm (x : Reg) (nn : Byte) : Statement (.addImm x nn) := of_row 8 fun _ =>
  ⟨packXNN_and_op x (by decide) nn.isLt,
    congr (congrArg Instr.addImm (fieldX_packXNN x (by decide) nn.isLt)) (fieldNN_packXNN_imm x nn (by decide))⟩

theorem ldReg (x y : Reg) : Statement (.ldReg x y) := of_row 9 fun _ =>
  ⟨packXYN_and_opN x y (by decide) (by decide),
    congr (congrArg Instr.ldReg (fieldX_packXYN x y (by decide) (by decide))) (fieldY_packXYN x y (by decide) (by decide))⟩

theorem orReg (x y : Reg) : Statement (.orReg x y) := of_row 10 fun _ =>
  ⟨packXYN_and_opN x y (by decide) (by decide),
    congr (congrArg Instr.orReg (fieldX_packXYN x y (by decide) (by decide))) (fieldY_packXYN x y (by decide) (by decide))⟩

theorem andReg (x y : Reg) : Statement (.andReg x y) := of_row 11 fun _ =>
  ⟨packXYN_and_opN x y (by decide) (by decide),
    congr (congrArg Instr.andReg (fieldX_packXYN x y (by decide) (by decide))) (fieldY_packXYN x y (by decide) (by decide))⟩

theorem xorReg (x y : Reg) : Statement (.xorReg x y) := of_row 12 fun _ =>
  ⟨packXYN_and_opN x y (by decide) (by decide),
    congr (congrArg Instr.xorReg (fieldX_packXYN x y (by decide) (by decide))) (fieldY_packXYN x y (by decide) (by decide))⟩

theorem addReg (x y : Reg) : Statement (.addReg x y) := of_row 13 fun _ =>
  ⟨packXYN_and_opN x y (by decide) (by decide),
    congr (congrArg Instr.addReg (fieldX_packXYN x y (by decide) (by decide))) (fieldY_packXYN x y (by decide) (by decide))⟩

theorem subReg (x y : Reg) : Statement (.subReg x y) := of_row 14 fun _ =>
  ⟨packXYN_and_opN x y (by decide) (by decide),
    congr (congrArg Instr.subReg (fieldX_packXYN x y (by decide) (by decide))) (fieldY_packXYN x y (by decide) (by decide))⟩

theorem shr (x y : Reg) : Statement (.shr x y) := of_row 15 fun _ =>
  ⟨packXYN_and_opN x y (by decide) (by decide),
    congr (congrArg Instr.shr (fieldX_packXYN x y (by decide) (by decide))) (fieldY_packXYN x y (by decide) (by decide))⟩

theorem subn (x y : Reg) : Statement (.subn x y) := of_row 16 fun _ =>
  ⟨packXYN_and_opN x y (by decide) (by decide),
    congr (congrArg Instr.subn (fieldX_packXYN x y (by decide) (by decide))) (fieldY_packXYN x y (by decide) (by decide))⟩

theorem shl (x y : Reg) : Statement (.shl x y) := of_row 17 fun _ =>
  ⟨packXYN_and_opN x y (by decide) (by decide),
    congr (congrArg Instr.shl (fieldX_packXYN x y (by decide) (by decide))) (fieldY_packXYN x y (by decide) (by decide))⟩

theorem sneReg (x y : Reg) : Statement (.sneReg x y) := of_row 18 fun _ =>
  ⟨packXYN_and_opN x y (by decide) (by decide),
    congr (congrArg Instr.sneReg (fieldX_packXYN x y (by decide) (by decide))) (fieldY_packXYN x y (by decide) (by decide))⟩

theorem ldI (nnn : Addr12) : Statement (.ldI nnn) := of_row 19 fun _ =>
  ⟨packNNN_and (by decide) nnn.isLt, congrArg Instr.ldI (fieldNNN_packNNN_addr nnn (by decide))⟩

theorem jpV0 (nnn : Addr12) : Statement (.jpV0 nnn) := of_row 20 fun _ =>
  ⟨packNNN_and (by decide) nnn.isLt, congrArg Instr.jpV0 (fieldNNN_packNNN_addr nnn (by decide))⟩

theorem rnd (x : Reg) (nn : Byte) : Statement (.rnd x nn) := of_row 21 fun _ =>
  ⟨packXNN_and_op x (by decide) nn.isLt,
    congr (congrArg Instr.rnd (fieldX_packXNN x (by decide) nn.isLt)) (fieldNN_packXNN_imm x nn (by decide))⟩

theorem drw (x y : Reg) (n : Nat) : Statement (.drw x y n) := of_row 22 fun wf => by
  have hn : n < 16 := by simpa [Instr.WellFormed, Instr.heightOk] using wf
  exact ⟨packXYN_and_op x y (by decide) hn,
    congr (congr (congrArg Instr.drw (fieldX_packXYN x y (by decide) hn)) (fieldY_packXYN x y (by decide) hn))
      (fieldN_packXYN x y (by decide) hn)⟩

theorem skp (x : Reg) : Statement (.skp x) := of_row 23 fun _ =>
  ⟨packXNN_and_opNN x (by decide) (by decide), congrArg Instr.skp (fieldX_packXNN x (by decide) (by decide))⟩

theorem sknp (x : Reg) : Statement (.sknp x) := of_row 24 fun _ =>
  ⟨packXNN_and_opNN x (by decide) (by decide), congrArg Instr.sknp (fieldX_packXNN x (by decide) (by decide))⟩

theorem ldVxDT (x : Reg) : Statement (.ldVxDT x) := of_row 25 fun _ =>
  ⟨packXNN_and_opNN x (by decide) (by decide), congrArg Instr.ldVxDT (fieldX_packXNN x (by decide) (by decide))⟩

theorem ldVxK (x : Reg) : Statement (.ldVxK x) := of_row 26 fun _ =>
  ⟨packXNN_and_opNN x (by decide) (by decide), congrArg Instr.ldVxK (fieldX_packXNN x (by decide) (by decide))⟩

theorem ldDTVx (x : Reg) : Statement (.ldDTVx x) := of_row 27 fun _ =>
  ⟨packXNN_and_opNN x (by decide) (by decide), congrArg Instr.ldDTVx (fieldX_packXNN x (by decide) (by decide))⟩

theorem ldSTVx (x : Reg) : Statement (.ldSTVx x) := of_row 28 fun _ =>
  ⟨packXNN_and_opNN x (by decide) (by decide), congrArg Instr.ldSTVx (fieldX_packXNN x (by decide) (by decide))⟩

theorem addI (x : Reg) : Statement (.addI x) := of_row 29 fun _ =>
  ⟨packXNN_and_opNN x (by decide) (by decide), congrArg Instr.addI (fieldX_packXNN x (by decide) (by decide))⟩

theorem ldF (x : Reg) : Statement (.ldF x) := of_row 30 fun _ =>
  ⟨packXNN_and_opNN x (by decide) (by decide), congrArg Instr.ldF (fieldX_packXNN x (by decide) (by decide))⟩

theorem ldB (x : Reg) : Statement (.ldB x) := of_row 31 fun _ =>
  ⟨packXNN_and_opNN x (by decide) (by decide), congrArg Instr.ldB (fieldX_packXNN x (by decide) (by decide))⟩

theorem storeRegs (x : Reg) : Statement (.storeRegs x) := of_row 32 fun _ =>
  ⟨packXNN_and_opNN x (by decide) (by decide), congrArg Instr.storeRegs (fieldX_packXNN x (by decide) (by decide))⟩

theorem loadRegs (x : Reg) : Statement (.loadRegs x) := of_row 33 fun _ =>
  ⟨packXNN_and_opNN x (by decide) (by decide), congrArg Instr.loadRegs (fieldX_packXNN x (by decide) (by decide))⟩

end Sys2Proof.Laws.TableRow
end

