-- ==== Sys2Proof/Laws/Step.lean ====
section
/-! SUPPORT. What a tick, a host call and a step can do, once, so that no proof unfolds them again. -/

namespace Sys2Proof.Machine

theorem fetch_of_le (s : State) (h : s.pc.toNat ≤ 4094) :
    s.fetch = some (wordOfBytes (s.readByte s.pc.toNat) (s.readByte (s.pc.toNat + 1))) :=
  if_neg (by simp only [topAddress]; omega)

theorem fetch_above (s : State) (h : 4095 ≤ s.pc.toNat) : s.fetch = none :=
  if_pos (by simp only [topAddress]; omega)

/-- The fetch depends on `PC`, memory and the font alone. -/
theorem fetch_congr {s t : State} (hpc : t.pc = s.pc) (hm : t.mem = s.mem) (hp : t.params = s.params) :
    t.fetch = s.fetch := by
  simp only [State.fetch, hpc, readByte_congr hm hp]

theorem fetch_some {s : State} {w : Word} (h : s.fetch = some w) : s.pc.toNat ≤ 4094 := by
  by_contra hc
  rw [fetch_above s (by omega)] at h
  cases h

/-- An allowed tick runs the instruction it fetches, or raises one of the two faults before it. -/
theorem fetchDecodeExecute_cases (s : State) :
    (4095 ≤ s.pc.toNat ∧ fetchDecodeExecute s = .next (raise .fetchOutOfRange 0 s.pc.toNat s)) ∨
    (∃ w, s.fetch = some w ∧ decodeWord w = none ∧
      fetchDecodeExecute s = .next (raise .illegalInstruction w w.toNat s)) ∨
    (∃ w i, s.fetch = some w ∧ decodeWord w = some i ∧ fetchDecodeExecute s = exec i s) := by
  rcases Nat.lt_or_ge s.pc.toNat 4095 with h | h
  · have hf := fetch_of_le s (by omega)
    cases hd : decodeWord (wordOfBytes (s.readByte s.pc.toNat) (s.readByte (s.pc.toNat + 1))) with
    | none => exact .inr (.inl ⟨_, hf, hd, by simp only [fetchDecodeExecute, hf, hd]⟩)
    | some i => exact .inr (.inr ⟨_, i, hf, hd, by simp only [fetchDecodeExecute, hf, hd]⟩)
  · exact .inl ⟨h, by simp only [fetchDecodeExecute, fetch_above s h]⟩

/-- A tick is refused, or the machine is running and fetches, decodes and executes. -/
theorem tick_cases (s : State) :
    (s.fault = true ∧ tick s = .refused .tickFaulted) ∨
    (s.fault = false ∧ s.loaded = false ∧ tick s = .refused .tickNotLoaded) ∨
    (s.fault = false ∧ s.loaded = true ∧ tick s = fetchDecodeExecute s) := by
  unfold tick
  cases s.fault <;> cases s.loaded <;> simp

/-- A tick that answers a next state ran on a running machine. -/
theorem tick_next {s t : State} (h : tick s = .next t) :
    s.fault = false ∧ s.loaded = true ∧ fetchDecodeExecute s = .next t := by
  rcases tick_cases s with ⟨-, e⟩ | ⟨-, -, e⟩ | ⟨hf, hl, e⟩
  · rw [e] at h; cases h
  · rw [e] at h; cases h
  · exact ⟨hf, hl, e ▸ h⟩

/-- What a tick that answers a next state did. -/
theorem tick_next_cases {s t : State} (h : tick s = .next t) :
    s.fault = false ∧ s.loaded = true ∧
    ((4095 ≤ s.pc.toNat ∧ t = raise .fetchOutOfRange 0 s.pc.toNat s) ∨
     (∃ w, s.fetch = some w ∧ decodeWord w = none ∧ t = raise .illegalInstruction w w.toNat s) ∨
     (∃ w i, s.fetch = some w ∧ decodeWord w = some i ∧ exec i s = .next t)) := by
  obtain ⟨hf, hl, hx⟩ := tick_next h
  refine ⟨hf, hl, ?_⟩
  rcases fetchDecodeExecute_cases s with ⟨hp, e⟩ | ⟨w, hw, hd, e⟩ | ⟨w, i, hw, hd, e⟩
  · rw [e] at hx; cases hx; exact .inl ⟨hp, rfl⟩
  · rw [e] at hx; cases hx; exact .inr (.inl ⟨w, hw, hd, rfl⟩)
  · exact .inr (.inr ⟨w, i, hw, hd, e ▸ hx⟩)

/-- A step is a tick where no host call is to come, else the first host call on the state without it. -/
theorem step_nil {s : State} (h : s.hostCalls = []) : step s = tick s := by
  simp only [step, h]

theorem step_cons {s : State} {c : HostCall} {rest : List HostCall} (h : s.hostCalls = c :: rest) :
    step s = hostCall c { s with hostCalls := rest } := by
  simp only [step, h]

/-- What a step that answers a next state did. -/
theorem step_next_cases {s t : State} (h : step s = .next t) :
    (s.hostCalls = [] ∧ tick s = .next t) ∨
    ∃ c rest, s.hostCalls = c :: rest ∧ hostCall c { s with hostCalls := rest } = .next t := by
  cases hc : s.hostCalls with
  | nil => exact .inl ⟨rfl, step_nil hc ▸ h⟩
  | cons c rest => exact .inr ⟨c, rest, rfl, step_cons hc ▸ h⟩

/-! ### Host operations in and out of the FAULT state -/

theorem hostTick_faulted {s : State} (h : s.fault = true) : hostTick s = .next s := if_pos h

theorem hostTick_of_unfaulted {s : State} (h : s.fault = false) : hostTick s = tick s := by
  simp [hostTick, h]

theorem hostLoad_faulted {s : State} (p : List Byte) (h : s.fault = true) : hostLoad p s = s := by
  simp [hostLoad, h]

theorem hostLoad_tooLarge {s : State} {p : List Byte} (h : s.fault = false) (hl : 3584 < p.length) :
    hostLoad p s = raiseLoadTooLarge p.length s := by
  simp [hostLoad, h, maxProgram, hl]

theorem hostLoad_fits {s : State} {p : List Byte} (h : s.fault = false) (hl : p.length ≤ 3584) :
    hostLoad p s = { s.storeBytes 0x200 p with pc := 0x200, loaded := true } := by
  have : ¬ 3584 < p.length := by omega
  simp [hostLoad, h, maxProgram, this, loadOffset]

theorem hostWriteKeys_faulted {s : State} (k : Vector Bool 16) (h : s.fault = true) : hostWriteKeys k s = s := by
  simp [hostWriteKeys, h]

theorem hostAdvanceTimers_faulted {s : State} (h : s.fault = true) : hostAdvanceTimers s = s := by
  simp [hostAdvanceTimers, h]

theorem hostSetVblank_faulted {s : State} (b : Bool) (h : s.fault = true) : hostSetVblank b s = s := by
  simp [hostSetVblank, h]

end Sys2Proof.Machine
end

