-- ==== Sys2Proof/Tests/Slice0.lean ====
section
/-! SUPPORT. The model's own tests: the checks of `WellFormed`, words written out from the patterns of R74, single
steps whose expected results are the rows of 95_test_vectors.md, and a witness for the hypotheses of every statement. -/

namespace Sys2Proof.Machine

/-! ### Helpers -/

/-- A loaded machine at 0x200 with zeros everywhere but the default font. -/
def testBase : State := { State.reset with pc := 0x200, loaded := true }

/-- The same machine in MODERN. -/
def testModern : State := { testBase with params := { resetParams with compat := .modern } }

/-- The same machine with `VSYNC_GATING`. -/
def testGated : State := { testBase with params := { resetParams with vsyncGating := true } }

/-- The state with these general registers written. -/
def State.withV (s : State) (l : List (Reg × Byte)) : State := l.foldl (fun t p => t.setV p.1 p.2) s

/-- The state with one cell of the framebuffer set. -/
def State.withCell (s : State) (cx cy : Nat) : State := { s with fb := flipCell s.fb cx cy }

/-- The state with exactly these keys down. -/
def State.withKeys (s : State) (l : List (Fin 16)) : State :=
  { s with keys := Vector.ofFn fun k : Fin 16 => l.contains k }

/-- The step that runs the word `w` answers a next state that satisfies `p`. -/
def after (s : State) (w : Nat) (p : State → Bool) : Bool :=
  match step (s.withFetchWord 16 w) with
  | .next t => p t
  | .fault _ => false
  | .refused _ => false

/-- The step answers a next state that satisfies `p`. -/
def afterStep (s : State) (p : State → Bool) : Bool :=
  match step s with
  | .next t => p t
  | .fault _ => false
  | .refused _ => false

/-- The status record of a fault at 0x200. -/
def faultAt200 (code : BitVec 3) (word info : Word) (t : State) : Bool :=
  statusRecord t == ⟨true, true, code, 0x200, word, info⟩

/-! ### WellFormed (R71, R72) -/

theorem test_ill_formed_height : ¬ (Instr.drw 0 0 16).WellFormed := by decide
theorem test_well_formed_height : (Instr.drw 15 15 15).WellFormed := by decide

/-! ### Decoding, one word per constructor, written out from R74 -/

theorem test_decode_family0 :
    [0x00E0#16, 0x00EE#16, 0x0000#16, 0x00E1#16, 0x01E0#16, 0x0123#16].map decodeWord =
      [some .cls, some .ret, none, none, none, none] := by decide

theorem test_decode_families_1_to_7 :
    [0x1234#16, 0x2300#16, 0x332A#16, 0x4BFE#16, 0x5120#16, 0x6A2F#16, 0x70FF#16, 0x5121#16].map decodeWord =
      [some (.jp 0x234), some (.call 0x300), some (.seImm 3 0x2A), some (.sneImm 11 0xFE), some (.seReg 1 2),
       some (.ldImm 10 0x2F), some (.addImm 0 0xFF), none] := by decide

theorem test_decode_family8 :
    [0x8120#16, 0x8121#16, 0x8122#16, 0x8123#16, 0x8124#16, 0x8125#16, 0x8126#16, 0x8127#16, 0x812E#16,
     0x8018#16, 0x801F#16].map decodeWord =
      [some (.ldReg 1 2), some (.orReg 1 2), some (.andReg 1 2), some (.xorReg 1 2), some (.addReg 1 2),
       some (.subReg 1 2), some (.shr 1 2), some (.subn 1 2), some (.shl 1 2), none, none] := by decide

theorem test_decode_families_9_to_E :
    [0x9AB0#16, 0xA2F0#16, 0xBFFF#16, 0xC1F0#16, 0xD125#16, 0xE29E#16, 0xE2A1#16, 0x9121#16, 0xE19F#16,
     0xE1A2#16].map decodeWord =
      [some (.sneReg 10 11), some (.ldI 0x2F0), some (.jpV0 0xFFF), some (.rnd 1 0xF0), some (.drw 1 2 5),
       some (.skp 2), some (.sknp 2), none, none, none] := by decide

theorem test_decode_familyF :
    [0xF507#16, 0xF20A#16, 0xF515#16, 0xF518#16, 0xF21E#16, 0xFA29#16, 0xF033#16, 0xFF55#16, 0xF265#16,
     0xF075#16, 0xF030#16].map decodeWord =
      [some (.ldVxDT 5), some (.ldVxK 2), some (.ldDTVx 5), some (.ldSTVx 5), some (.addI 2), some (.ldF 10),
       some (.ldB 0), some (.storeRegs 15), some (.loadRegs 2), none, none] := by decide

/-- The byte order: the byte at the lower address is the high byte (R54, R70). -/
theorem test_encode_bytes : encodeBytes (.drw 1 2 5) = [0xD1, 0x25] := by decide
theorem test_decode_table_word : decodeTableWord 16 0xF30A = some (.ldVxK 3) := by decide

/-! ### Control flow (Part 2, T1; 40_control_flow.md) -/

theorem test_jp : after testBase 0x1FFF (fun t => t.pc == 0xFFF) = true := by decide
theorem test_call : after { testBase with sp := 15 } 0x2300
    (fun t => t.pc == 0x300 && t.sp == 16 && t.stack[15] == 0x200) = true := by decide
theorem test_call_overflow : after { testBase with sp := 16 } 0x2300
    (fun t => faultAt200 3 0x2300 0x200 t && t.sp == 16 && t.pc == 0x200) = true := by decide
theorem test_ret : after { testBase with sp := 1, stack := testBase.stack.set 0 0x206 } 0x00EE
    (fun t => t.pc == 0x208 && t.sp == 0 && t.stack[0] == 0x206) = true := by decide
theorem test_ret_underflow : after testBase 0x00EE (faultAt200 4 0x00EE 0x200) = true := by decide
theorem test_se_imm : after (testBase.withV [(3, 0x2A)]) 0x332A (fun t => t.pc == 0x204) = true := by decide
theorem test_sne_imm : after (testBase.withV [(3, 0x2A)]) 0x432A (fun t => t.pc == 0x202) = true := by decide
theorem test_se_reg : after (testBase.withV [(1, 7), (2, 8)]) 0x5120 (fun t => t.pc == 0x202) = true := by decide
theorem test_sne_reg : after (testBase.withV [(1, 7), (2, 8)]) 0x9120 (fun t => t.pc == 0x204) = true := by decide
theorem test_jp_v0 : after (testBase.withV [(0, 0xFF), (15, 0x80)]) 0xBFFF (fun t => t.pc == 0x10FE) = true := by decide

/-! ### Arithmetic and logic (Part 2, T3) -/

theorem test_ld_imm : after testBase 0x6A2F (fun t => t.getV 10 == 0x2F && t.pc == 0x202) = true := by decide
theorem test_add_imm_no_flag : after (testBase.withV [(0, 1), (15, 0x77)]) 0x70FF
    (fun t => t.getV 0 == 0 && t.getV 15 == 0x77) = true := by decide
theorem test_ld_reg : after (testBase.withV [(1, 0x55)]) 0x8010 (fun t => t.getV 0 == 0x55) = true := by decide
theorem test_or : after (testBase.withV [(0, 0xF0), (1, 0x0F), (15, 0x77)]) 0x8011
    (fun t => t.getV 0 == 0xFF && t.getV 15 == 0x77) = true := by decide
theorem test_and : after (testBase.withV [(0, 0xF0), (1, 0x3C), (15, 0x77)]) 0x8012
    (fun t => t.getV 0 == 0x30 && t.getV 15 == 0x77) = true := by decide
theorem test_xor : after (testBase.withV [(0, 0xF0), (1, 0x3C), (15, 0x77)]) 0x8013
    (fun t => t.getV 0 == 0xCC && t.getV 15 == 0x77) = true := by decide
theorem test_add_carry : after (testBase.withV [(0, 250), (1, 10)]) 0x8014
    (fun t => t.getV 0 == 4 && t.getV 15 == 1) = true := by decide
theorem test_add_into_vf : after (testBase.withV [(15, 200), (1, 100)]) 0x8F14 (fun t => t.getV 15 == 1) = true := by
  decide
theorem test_sub_borrow : after (testBase.withV [(0, 10), (1, 20)]) 0x8015
    (fun t => t.getV 0 == 246 && t.getV 15 == 0) = true := by decide
theorem test_sub_equal : after (testBase.withV [(0, 7), (1, 7)]) 0x8015
    (fun t => t.getV 0 == 0 && t.getV 15 == 1) = true := by decide
theorem test_subn : after (testBase.withV [(0, 10), (1, 20)]) 0x8017
    (fun t => t.getV 0 == 10 && t.getV 15 == 1) = true := by decide
theorem test_subn_into_vf : after (testBase.withV [(15, 5), (1, 9)]) 0x8F17 (fun t => t.getV 15 == 1) = true := by decide
theorem test_shr_modern : after (testModern.withV [(0, 0xAA), (1, 0x05)]) 0x8016
    (fun t => t.getV 0 == 0x55 && t.getV 1 == 5 && t.getV 15 == 0) = true := by decide
theorem test_shr_legacy : after (testBase.withV [(0, 0xAA), (1, 0x05)]) 0x8016
    (fun t => t.getV 0 == 2 && t.getV 1 == 5 && t.getV 15 == 1) = true := by decide
theorem test_shl_modern : after (testModern.withV [(0, 0x81), (1, 0x41)]) 0x801E
    (fun t => t.getV 0 == 2 && t.getV 1 == 0x41 && t.getV 15 == 1) = true := by decide
theorem test_shl_legacy : after (testBase.withV [(0, 0x81), (1, 0x41)]) 0x801E
    (fun t => t.getV 0 == 0x82 && t.getV 1 == 0x41 && t.getV 15 == 0) = true := by decide
theorem test_rnd_goes_on : after testBase 0xC00F (fun t => t.pc == 0x202 && t.freeIndex == 2) = true := by decide
/-- `0xC000`, "any draw": `V[0] = 0x00`. -/
theorem test_rnd_mask_zero (s : State) : ∃ t, exec (.rnd 0 0) s = .next t ∧ t.getV 0 = 0 :=
  ⟨_, rfl, by simp [State.getV, State.setV, State.advance, State.setPc]⟩

/-! ### Index and memory (Part 2, T4) -/

theorem test_ld_i : after testBase 0xA2F0 (fun t => t.i == 0x2F0) = true := by decide
theorem test_add_i_wraps : after ({ testBase with i := 0xFF01 }.withV [(0, 0xFF), (15, 0x77)]) 0xF01E
    (fun t => t.i == 0 && t.getV 15 == 0x77) = true := by decide
theorem test_ld_f : after (testBase.withV [(0, 0xFF)]) 0xF029 (fun t => t.i == 0x4FB) = true := by decide
theorem test_bcd : after ({ testBase with i := 0xFFD }.withV [(0, 255)]) 0xF033
    (fun t => t.loadBytes 0xFFD 3 == [2, 5, 5] && t.pc == 0x202) = true := by decide
theorem test_bcd_out_of_range : after ({ testBase with i := 0xFFE }.withV [(0, 255)]) 0xF033
    (fun t => faultAt200 6 0xF033 0x1000 t && t.readByte 0xFFE == 0 && t.pc == 0x200) = true := by decide
theorem test_store_regs_legacy : after ({ testBase with i := 0xFF0 }.withV [(0, 0x10), (15, 0x1F)]) 0xFF55
    (fun t => t.readByte 0xFF0 == 0x10 && t.readByte 0xFFF == 0x1F && t.i == 0x1000) = true := by decide
theorem test_store_regs_modern : after ({ testModern with i := 0xFF0 }.withV [(0, 0x10), (15, 0x1F)]) 0xFF55
    (fun t => t.readByte 0xFF0 == 0x10 && t.readByte 0xFFF == 0x1F && t.i == 0xFF0) = true := by decide
theorem test_load_regs_legacy :
    after (({ testBase with i := 0x400 }.storeBytes 0x400 [0xAA, 0xBB, 0xCC]).withV [(3, 0x99)]) 0xF265
      (fun t => t.v.toList.take 4 == [0xAA, 0xBB, 0xCC, 0x99] && t.i == 0x403) = true := by decide
theorem test_load_regs_out_of_range : after { testModern with i := 0x1000 } 0xF065
    (fun t => faultAt200 6 0xF065 0x1000 t && t.i == 0x1000) = true := by decide

/-! ### Display (Part 2, T5) -/

theorem test_cls : after ((testGated.withCell 63 31).withV [(15, 0x77)]) 0x00E0
    (fun t => t.fb == Vector.replicate 32 0 && t.getV 15 == 0x77) = true := by decide
/-- `MEM[0x300] = 0xC0`, `FB[0] = 1`: `FB[0] = 0`, `FB[1] = 1`, `V[15] = 1`. -/
theorem test_drw_collision :
    after (({ testBase with i := 0x300 }.storeBytes 0x300 [0xC0]).withCell 0 0) 0xD011
      (fun t => !cellAt t.fb 0 0 && cellAt t.fb 1 0 && t.getV 15 == 1) = true := by decide
/-- Column 62 of row 30, three rows: 6 columns and the third row are clipped. -/
theorem test_drw_clips :
    after (({ testBase with i := 0x300 }.storeBytes 0x300 [0xFF, 0x80, 0x80]).withV [(0, 62), (1, 30)]) 0xD013
      (fun t => t.fb == ((testBase.withCell 62 30).withCell 63 30 |>.withCell 62 31).fb && t.getV 15 == 0) = true := by
  decide

/-! ### Keypad and timers (Part 2, T6) -/

theorem test_skp : after ((testBase.withV [(0, 15)]).withKeys [15]) 0xE09E (fun t => t.pc == 0x204) = true := by decide
theorem test_skp_range : after (testBase.withV [(0, 16)]) 0xE09E (faultAt200 7 0xE09E 16) = true := by decide
theorem test_sknp : after ((testBase.withV [(0, 15)]).withKeys [15]) 0xE0A1 (fun t => t.pc == 0x202) = true := by decide
theorem test_sknp_range : after (testBase.withV [(0, 0xFF)]) 0xE0A1 (faultAt200 7 0xE0A1 255) = true := by decide
theorem test_key_wait_latches : after (testBase.withKeys [4, 9]) 0xF20A
    (fun t => t.keyLatch == some 4 && t.pc == 0x200 && t.getV 2 == 0) = true := by decide
theorem test_key_wait_completes : after ({ testBase with keyLatch := some 4 }.withKeys [9]) 0xF20A
    (fun t => t.keyLatch == none && t.pc == 0x202 && t.getV 2 == 4) = true := by decide
theorem test_ld_vx_dt : after { testBase with dt := 0x3C } 0xF507 (fun t => t.getV 5 == 0x3C && t.dt == 0x3C) = true := by
  decide
theorem test_ld_dt_vx : after (testBase.withV [(5, 60)]) 0xF515 (fun t => t.dt == 60 && t.st == 0) = true := by decide
theorem test_ld_st_vx : after (testBase.withV [(5, 2)]) 0xF518
    (fun t => t.st == 2 && t.dt == 0 && soundActive t) = true := by decide

/-! ### Reset, load and host calls (Part 2, T6 and T7) -/

/-- `init`: `MEM[0x00..0x04] = F0 90 90 90 F0`, `MEM[0x4B..0x4F] = F0 80 F0 80 80`, `MEM[0x50] = 0`. -/
theorem test_reset_font :
    State.reset.loadBytes 0 5 = [0xF0, 0x90, 0x90, 0x90, 0xF0] ∧
    State.reset.loadBytes 0x4B 6 = [0xF0, 0x80, 0xF0, 0x80, 0x80, 0] := by decide
/-- `load` of `60 01`: the bytes stand at 0x200, `PC = 0x0200`; `V[3] = 9`, `SP = 2`, `DT = 7` still. -/
theorem test_load : afterStep ({ testBase with sp := 2, dt := 7, pc := 0x345, hostCalls := [.load [0x60, 0x01]] }.withV [(3, 9)])
    (fun t => t.loadBytes 0x200 3 == [0x60, 0x01, 0] && t.pc == 0x200 && t.getV 3 == 9 && t.sp == 2 && t.dt == 7) = true := by
  decide
theorem test_advance_timers : afterStep { testBase with dt := 0, st := 255, hostCalls := [.advanceTimers] }
    (fun t => t.dt == 0 && t.st == 254 && t.pc == 0x200) = true := by decide
/-- `init`, then `tick`: Refused. -/
theorem test_tick_before_load : step State.reset = .refused .tickNotLoaded := rfl
/-- A host's tick before a load is refused too, with a load still to come. -/
theorem test_host_tick_before_load :
    step { State.reset with hostCalls := [.tick, .load [0x12, 0x00]] } = .refused .tickNotLoaded := rfl
/-- T5: `VBLANK` open and `I = 0xFFFF`: `FAULT_INFO = 0xFFFF`; with n = 3 the address 0x10001 saturates (R174). -/
theorem test_fault_info_saturates : after { testBase with i := 0xFFFF } 0xD013
    (fun t => faultAt200 6 0xD013 0xFFFF t && t.getV 15 == 0) = true := by decide
/-- After a fault a tick is refused, and a host's tick changes nothing, so that its `init` still comes. -/
theorem test_tick_after_fault : tickOutcome { testBase with fault := true } = .refused := by decide
theorem test_host_tick_after_fault : afterStep { testBase with fault := true, hostCalls := [.tick, .init] }
    (fun t => t.fault && t.pc == 0x200 && t.hostCalls == [.init]) = true := by decide

/-! ### Witnesses: states and operands that meet the hypotheses of each statement -/

/-- The machine at an address that holds this word, with this schedule of host calls. -/
def testAt (a : Word) (w : Word) (calls : List HostCall) : State :=
  { testBase.storeBytes a.toNat (wordBytes w) with pc := a, hostCalls := calls }

theorem witness_DecodeOfEncode : (Instr.drw 15 15 15).WellFormed ∧ (Instr.jpV0 0xFFF).WellFormed := by decide
theorem witness_EncodeOfDecode :
    decodeWord 0xDFFF = some (.drw 15 15 15) ∧ decodeWord 0xFF65 = some (.loadRegs 15) := by decide

/-- The hypotheses of `StepRunsTheDecodedInstruction`, at the last address with two bytes. -/
theorem witness_StepRuns_no_call :
    let s := testAt 0xFFE 0x6A55 []
    s.loaded = true ∧ s.fault = false ∧ s.pc.toNat ≤ 4094 ∧
    (0x6A55#16).toNat = (s.readByte s.pc.toNat).toNat * 256 + (s.readByte (s.pc.toNat + 1)).toNat ∧
    decodeWord 0x6A55 = some (.ldImm 10 0x55) ∧ s.hostCalls = [] := by decide
theorem witness_StepRuns_tick_call :
    let s := testAt 0x203 0x6A55 [.tick, .init]
    s.loaded = true ∧ s.fault = false ∧ s.pc.toNat ≤ 4094 ∧
    (0x6A55#16).toNat = (s.readByte s.pc.toNat).toNat * 256 + (s.readByte (s.pc.toNat + 1)).toNat ∧
    s.hostCalls = .tick :: [.init] := by decide
theorem witness_StepPerforms : testBase.hostCalls = [] ∧ (testAt 0x200 0x1200 [.advanceTimers]).hostCalls = .advanceTimers :: [] := by
  decide
theorem witness_FetchBeyondMemory :
    let s := fun calls => { testBase with pc := 0xFFF, hostCalls := calls }
    (s []).loaded = true ∧ (s []).fault = false ∧ 4095 ≤ (s []).pc.toNat ∧ (s []).hostCalls = [] ∧
    (s [.tick, .init]).loaded = true ∧ (s [.tick, .init]).fault = false ∧ 4095 ≤ (s [.tick, .init]).pc.toNat ∧
    (s [.tick, .init]).hostCalls = .tick :: [.init] := by decide
theorem witness_IllegalWord :
    let s := testAt 0xFFE 0x8018 []
    s.loaded = true ∧ s.fault = false ∧ s.pc.toNat ≤ 4094 ∧
    (0x8018#16).toNat = (s.readByte s.pc.toNat).toNat * 256 + (s.readByte (s.pc.toNat + 1)).toNat ∧
    decodeWord 0x8018 = none ∧ s.hostCalls = [] := by decide
theorem witness_IllegalWord_tick_call :
    let s := testAt 0x200 0x0000 [.tick]
    s.loaded = true ∧ s.fault = false ∧ s.pc.toNat ≤ 4094 ∧
    (0x0000#16).toNat = (s.readByte s.pc.toNat).toNat * 256 + (s.readByte (s.pc.toNat + 1)).toNat ∧
    decodeWord 0x0000 = none ∧ s.hostCalls = .tick :: [] := by decide
theorem witness_TicksAreRefused :
    ({ testBase with fault := true } : State).fault = true ∧
    State.reset.fault = false ∧ State.reset.loaded = false ∧ testBase.running = true := by decide

theorem witness_Retry_key_wait : tickOutcome (testAt 0x200 0xF20A []) = .retry := by decide
theorem witness_Retry_latched :
    tickOutcome ({ testAt 0x200 0xF20A [] with keyLatch := some 4 }.withKeys [4]) = .retry := by decide
theorem witness_Retry_gated_draw :
    tickOutcome { testAt 0x200 0xD011 [] with params := testGated.params } = .retry := by decide

theorem witness_FaultsArePrecise_fetch : ∃ t, tick { testBase with pc := 0xFFFF } = .next t ∧ t.fault = true :=
  ⟨_, rfl, rfl⟩
theorem witness_FaultsArePrecise_instruction : ∃ t, tick (testAt 0x200 0x00EE []) = .next t ∧ t.fault = true :=
  ⟨_, rfl, rfl⟩
theorem witness_FaultState :
    let s := fun calls => { testBase with fault := true, hostCalls := calls }
    (s []).fault = true ∧ (s []).hostCalls = [] ∧ (s [.tick]).hostCalls = .tick :: [] ∧
    (s [.init]).hostCalls = .init :: [] := by decide
/-- Lengths and addresses below, at and above the value `FAULT_INFO` saturates at. -/
theorem witness_FaultInfoSaturates_load :
    State.reset.fault = false ∧ 3584 < (List.replicate 65536 (0x12 : Byte)).length := by
  refine ⟨rfl, ?_⟩
  rw [List.length_replicate]
  decide
theorem witness_FaultInfoSaturates_address :
    let s := { testBase with i := 0xFFFF }
    4095 < s.i.toNat + 2 ∧ 4095 < s.i.toNat + (15 : Reg).val ∧ 4095 < s.i.toNat + (0 : Reg).val ∧
    (s.params.vsyncGating = true → s.vblank = true) ∧ 4095 < s.i.toNat + (15 - 1) := by decide
theorem witness_TickLeavesTimers : ∃ t, tick ((testAt 0x200 0xF515 []).withV [(5, 60)]) = .next t ∧ t.dt = 60 :=
  ⟨_, rfl, rfl⟩
theorem witness_ParametersNeverChange : ∃ t, step { testModern with hostCalls := [.init] } = .next t := ⟨_, rfl⟩

theorem witness_Call : ({ testBase with sp := 15 } : State).sp.val < 16 ∧ ({ testBase with sp := 16 } : State).sp.val = 16 := by
  decide
theorem witness_Return :
    ({ testBase with sp := 1 } : State).sp.val = (0 : Fin 16).val + 1 ∧
    ({ testBase with sp := 16 } : State).sp.val = (15 : Fin 16).val + 1 ∧ testBase.sp.val = 0 := by decide
theorem witness_CallThenReturn : ∃ t, exec (.call 0x300) { testBase with sp := 15 } = .next t ∧
    { testModern with stack := t.stack, sp := t.sp }.sp = t.sp := ⟨_, rfl, rfl⟩
theorem witness_Shifts :
    (1 : Byte) = (if testBase.params.compat = .legacy then (testBase.withV [(2, 1)]).v[(2 : Reg)] else 0) ∧
    testModern.params.compat ≠ .legacy := by decide
theorem witness_RandomIsMasked : (0xF0 : Byte).getLsbD 0 = false := by decide

theorem witness_memory_wf : (testAt 0x200 0xF033 []).mem.wf testBase.params.font ∧ testBase.mem.wf testBase.params.font := by
  decide
theorem witness_BcdStore :
    ({ testBase with i := 0xFFD } : State).mem.wf testBase.params.font ∧
    ({ testBase with i := 0xFFD } : State).i.toNat + 2 ≤ 4095 ∧
    ({ testBase with i := 0xFFE } : State).mem.wf testBase.params.font ∧ 4095 < ({ testBase with i := 0xFFE } : State).i.toNat + 2 := by
  decide
theorem witness_BulkTransfer :
    ({ testBase with i := 0xFF0 } : State).mem.wf testBase.params.font ∧
    ({ testBase with i := 0xFF0 } : State).i.toNat + (15 : Reg).val ≤ 4095 ∧
    4095 < ({ testBase with i := 0xFF1 } : State).i.toNat + (15 : Reg).val ∧
    ({ testBase with i := 0xFFF } : State).i.toNat + (0 : Reg).val ≤ 4095 := by decide
theorem witness_BulkStoreThenLoad : ∃ t, exec (.storeRegs 15) { testBase with i := 0xFF0 } = .next t ∧
    { t with i := 0xFF0 }.mem = t.mem ∧ { t with i := 0xFF0 }.params = t.params := ⟨_, rfl, rfl, rfl⟩

/-- The sprite `80` at `I`, drawn at column 5 of row 2. -/
def testSprite : State := ({ testBase with i := 0x300 }.storeBytes 0x300 [0x80]).withV [(0, 5), (1, 2)]

/-- A draw of `n` bytes with the gate open and the range kept: ungated, at an open gate up to the last byte, and with n = 0. -/
theorem witness_Draw :
    (testSprite.params.vsyncGating = true → testSprite.vblank = true) ∧ testSprite.i.toNat + (1 - 1) ≤ 4095 ∧
    ({ testGated with vblank := true }.params.vsyncGating = true → { testGated with vblank := true }.vblank = true) ∧
    ({ testBase with i := 0xFFA } : State).i.toNat + (6 - 1) ≤ 4095 := by decide
theorem witness_Draw_covered : testSprite.spriteCovers 0 1 1 5 2 :=
  ⟨0, 0, by decide, by decide, by decide, by decide, by decide, by decide, by decide⟩
theorem witness_Draw_uncovered : ¬ testSprite.spriteCovers 0 1 1 5 3 := by
  rintro ⟨r, c, hr, -, hcy, -⟩
  obtain rfl : r = 0 := by omega
  exact absurd hcy (by decide)
theorem witness_Draw_collision : cellAt (testSprite.withCell 5 2).fb 5 2 = true ∧ cellAt testSprite.fb 5 2 = false := by
  decide
theorem witness_DrawRetriesOrFaults :
    testGated.params.vsyncGating = true ∧ testGated.vblank = false ∧
    (testBase.params.vsyncGating = true → testBase.vblank = true) ∧
    4095 < ({ testBase with i := 0xFFA } : State).i.toNat + (7 - 1) := by decide
theorem witness_DrawingTwice : ∃ t, exec (.drw 0 1 1) testSprite = .next t ∧
    { t with vblank := true }.fb = t.fb ∧ t.mem = testSprite.mem ∧ t.params = testSprite.params ∧
    t.i = testSprite.i ∧ t.v[(0 : Reg)] = testSprite.v[(0 : Reg)] ∧ t.v[(1 : Reg)] = testSprite.v[(1 : Reg)] ∧
    ({ t with vblank := true }.params.vsyncGating = true → { t with vblank := true }.vblank = true) :=
  ⟨_, rfl, rfl, rfl, rfl, rfl, by decide, by decide, fun _ => rfl⟩

theorem witness_KeySkips :
    (testBase.withV [(0, 15)]).v[(0 : Reg)].toNat = (15 : Fin 16).val ∧
    15 < (testBase.withV [(0, 16)]).v[(0 : Reg)].toNat := by decide
theorem witness_KeyWait :
    (testBase.keyLatch = none ∧ ∀ k : Fin 16, testBase.keys[k] = false) ∧
    ((testBase.withKeys [4, 9]).keys[(4 : Fin 16)] = true ∧
      ∀ j : Fin 16, j < 4 → (testBase.withKeys [4, 9]).keys[j] = false) ∧
    ({ testBase with keyLatch := some 4 }.withKeys [4]).keys[(4 : Fin 16)] = true ∧
    ({ testBase with keyLatch := some 4 }.withKeys [9]).keys[(4 : Fin 16)] = false := by decide

/-- The hypothesis of the frame statements, met by an instruction that stores and by one that faults. -/
theorem witness_Frames_store : ∃ t, exec (.ldB 0) ({ testBase with i := 0x300 }.withV [(0, 255)]) = .next t ∧
    t.fault = false ∧ writesIndex testBase.params (.ldB 0) = false ∧ VF ∉ writtenRegs (.ldB 0) :=
  ⟨_, rfl, rfl, rfl, by decide⟩
theorem witness_Frames_fault : ∃ t, exec .ret testBase = .next t ∧ t.fault = true := ⟨_, rfl, rfl⟩

/-- Each case of `InstructionsFaultOnlyByTheirOwnCheck`, at the boundary of its check. -/
theorem witness_OwnCheck_stack_and_keys :
    (∃ t, exec (.call 0x300) { testBase with sp := 16 } = .next t ∧ t.faultCode = 3) ∧
    (∃ t, exec .ret testBase = .next t ∧ t.faultCode = 4) ∧
    (∃ t, exec (.sknp 0) (testBase.withV [(0, 16)]) = .next t ∧ t.faultCode = 7) :=
  ⟨⟨_, rfl, rfl⟩, ⟨_, rfl, rfl⟩, ⟨_, rfl, rfl⟩⟩
theorem witness_OwnCheck_range :
    (∃ t, exec (.drw 0 1 7) { testBase with i := 0xFFA } = .next t ∧ t.faultCode = 6) ∧
    (∃ t, exec (.ldB 0) { testBase with i := 0xFFE } = .next t ∧ t.faultCode = 6) ∧
    (∃ t, exec (.storeRegs 15) { testBase with i := 0xFF1 } = .next t ∧ t.faultCode = 6) ∧
    (∃ t, exec (.loadRegs 0) { testBase with i := 0x1000 } = .next t ∧ t.faultCode = 6) :=
  ⟨⟨_, rfl, rfl⟩, ⟨_, rfl, rfl⟩, ⟨_, rfl, rfl⟩, ⟨_, rfl, rfl⟩⟩

theorem witness_CanonicalMemories :
    let m : Memory := [(0x200, 0x12), (0x201, 0x34)]
    m.wf testBase.params.font ∧ ∀ a, m.read testBase.params.font a = m.read testBase.params.font a :=
  ⟨by decide, fun _ => rfl⟩
theorem witness_StoredWord : testBase.mem.wf testBase.params.font ∧ (0xFFE#16).toNat ≤ 4094 := by decide
theorem witness_HostWrites : testBase.fault = false ∧ State.reset.fault = false := by decide
theorem witness_Init : ∃ s t, hostCall .init s = .next t ∧ s.fault = true := ⟨{ testBase with fault := true }, _, rfl, rfl⟩
theorem witness_Load :
    State.reset.fault = false ∧ State.reset.mem.wf State.reset.params.font ∧
    (List.replicate 3584 (0x12 : Byte)).length ≤ 3584 ∧ 3584 < (List.replicate 3585 (0x12 : Byte)).length := by
  refine ⟨rfl, by decide, ?_, ?_⟩ <;> rw [List.length_replicate]
  decide

/-- A coherent state that a step leaves: a created machine with a program to load. -/
theorem witness_Coherence : ∃ s t, State.Coherent s ∧ step s = .next t ∧ t.loaded = true := by
  refine ⟨{ State.created resetParams 0 with hostCalls := [.load [0x12, 0x00]] }, _, ⟨?_, ?_, ?_, ?_, ?_, ?_⟩, rfl, rfl⟩
  all_goals decide
theorem witness_IdleLoop :
    (testAt 0x200 0x1200 []).hostCalls = [] ∧ (testAt 0x200 0x1200 []).running = true ∧
    (testAt 0x200 0x1200 []).idleAt 0x200 = true ∧ (testAt 0xFFE 0x1FFE []).idleAt 0xFFE = true := by decide

end Sys2Proof.Machine
end

section
/-! SUPPORT. What no instruction writes: the key snapshot, `LOADED`, the parameters and the host's calls. The frame is
proved once for `exec` and then read off by the statements about steps. -/

namespace Sys2Proof.Machine

/-- The part of the state that only the host writes is as before: `KEYS`, `LOADED`, the parameters and the host's
calls (10_state.md R31, R34, R39). -/
structure SameHostState (s t : State) : Prop where
  keys    : t.keys = s.keys
  loaded  : t.loaded = s.loaded
  setting : sameSetting s t

namespace SameHostState

theorem refl (s : State) : SameHostState s s := ⟨rfl, rfl, rfl, rfl⟩

theorem raise (c : FaultCause) (w : Word) (n : Nat) (s : State) : SameHostState s (raise c w n s) :=
  ⟨rfl, rfl, rfl, rfl⟩

theorem raiseAt (c : FaultCause) (i : Instr) (n : Nat) (s : State) : SameHostState s (raiseAt c i n s) :=
  raise c (encode i) n s

theorem skipIf (c : Bool) (s : State) : SameHostState s (s.skipIf c) :=
  ⟨skipIf_keys c s, skipIf_loaded c s, skipIf_params c s, skipIf_hostCalls c s⟩

theorem setI {s t : State} (h : SameHostState s t) (a : Word) : SameHostState s (t.setI a) :=
  ⟨h.keys, h.loaded, h.setting⟩

theorem advance {s t : State} (h : SameHostState s t) : SameHostState s t.advance :=
  ⟨h.keys, h.loaded, h.setting⟩

theorem storeBytes (s : State) (a : Nat) (bs : List Byte) : SameHostState s (s.storeBytes a bs) :=
  ⟨rfl, rfl, rfl, rfl⟩

theorem setRegisters (s : State) (v : Vector Byte 16) : SameHostState s { s with v := v } :=
  ⟨rfl, rfl, rfl, rfl⟩

theorem drawCompleted (d : Drawing) (s : State) : SameHostState s (drawCompleted d s) :=
  ⟨rfl, rfl, rfl, rfl⟩

/-- The range check adds only the fault. -/
theorem rangeChecked {s done : State} (i : Instr) (top : Nat) (h : SameHostState s done) :
    SameHostState s (rangeChecked i top s done) := by
  rcases rangeChecked_cases i top s done with ⟨-, e⟩ | ⟨-, e⟩
  · rw [e]; exact raiseAt ..
  · rwa [e]

end SameHostState

/-! ### The instructions with more than one outcome -/

theorem execRet_sameHostState (s : State) : ∃ t, execRet s = .next t ∧ SameHostState s t := by
  unfold execRet
  cases h : s.pop with
  | none => exact ⟨_, rfl, .raiseAt ..⟩
  | some r =>
    obtain ⟨site, t⟩ := r
    obtain ⟨-, -, rfl⟩ := pop_cases h
    exact ⟨_, rfl, rfl, rfl, rfl, rfl⟩

theorem execCall_sameHostState (nnn : Addr12) (s : State) :
    ∃ t, execCall nnn s = .next t ∧ SameHostState s t := by
  unfold execCall
  cases h : s.push s.pc with
  | none => exact ⟨_, rfl, .raiseAt ..⟩
  | some t =>
    obtain ⟨-, rfl⟩ := push_cases h
    exact ⟨_, rfl, rfl, rfl, rfl, rfl⟩

theorem execDrw_sameHostState (x y : Reg) (n : Nat) (s : State) :
    ∃ t, execDrw x y n s = .next t ∧ SameHostState s t := by
  unfold execDrw
  split_ifs
  · exact ⟨_, rfl, .refl s⟩
  · exact ⟨_, rfl, .drawCompleted ..⟩
  · exact ⟨_, rfl, .rangeChecked _ _ (.drawCompleted ..)⟩

theorem execLdB_sameHostState (x : Reg) (s : State) :
    ∃ t, execLdB x s = .next t ∧ SameHostState s t :=
  ⟨_, rfl, .rangeChecked _ _ (SameHostState.storeBytes ..).advance⟩

theorem execStoreRegs_sameHostState (x : Reg) (s : State) :
    ∃ t, execStoreRegs x s = .next t ∧ SameHostState s t :=
  ⟨_, rfl, .rangeChecked _ _ ((SameHostState.storeBytes ..).setI _).advance⟩

theorem execLoadRegs_sameHostState (x : Reg) (s : State) :
    ∃ t, execLoadRegs x s = .next t ∧ SameHostState s t :=
  ⟨_, rfl, .rangeChecked _ _ ((SameHostState.setRegisters ..).setI _).advance⟩

theorem execSkp_sameHostState (x : Reg) (s : State) : ∃ t, execSkp x s = .next t ∧ SameHostState s t := by
  unfold execSkp
  cases keyIndex x s with
  | none => exact ⟨_, rfl, .raiseAt ..⟩
  | some k => exact ⟨_, rfl, .skipIf ..⟩

theorem execSknp_sameHostState (x : Reg) (s : State) : ∃ t, execSknp x s = .next t ∧ SameHostState s t := by
  unfold execSknp
  cases keyIndex x s with
  | none => exact ⟨_, rfl, .raiseAt ..⟩
  | some k => exact ⟨_, rfl, .skipIf ..⟩

theorem execLdVxK_sameHostState (x : Reg) (s : State) :
    ∃ t, execLdVxK x s = .next t ∧ SameHostState s t := by
  unfold execLdVxK
  cases s.keyLatch with
  | none => exact ⟨_, rfl, rfl, rfl, rfl, rfl⟩
  | some k =>
    cases keyWaitBlocked s with
    | true => exact ⟨_, rfl, .refl s⟩
    | false => exact ⟨_, rfl, rfl, rfl, rfl, rfl⟩

/-! ### Every instruction -/

/-- Every instruction answers a next state, and leaves the host's part of the state alone. -/
theorem exec_sameHostState (i : Instr) (s : State) : ∃ t, exec i s = .next t ∧ SameHostState s t := by
  cases i with
  | cls | jp _ | jpV0 _ | ldI _ | addI _ | ldF _ => exact ⟨_, rfl, rfl, rfl, rfl, rfl⟩
  | ldImm _ _ | addImm _ _ | ldReg _ _ | orReg _ _ | andReg _ _ | xorReg _ _ | rnd _ _ =>
    exact ⟨_, rfl, rfl, rfl, rfl, rfl⟩
  | addReg _ _ | subReg _ _ | shr _ _ | subn _ _ | shl _ _ => exact ⟨_, rfl, rfl, rfl, rfl, rfl⟩
  | ldVxDT _ | ldDTVx _ | ldSTVx _ => exact ⟨_, rfl, rfl, rfl, rfl, rfl⟩
  | seImm _ _ | sneImm _ _ | seReg _ _ | sneReg _ _ => exact ⟨_, rfl, .skipIf ..⟩
  | ldB x => exact execLdB_sameHostState x s
  | storeRegs x => exact execStoreRegs_sameHostState x s
  | loadRegs x => exact execLoadRegs_sameHostState x s
  | ret => exact execRet_sameHostState s
  | call nnn => exact execCall_sameHostState nnn s
  | drw x y n => exact execDrw_sameHostState x y n s
  | skp x => exact execSkp_sameHostState x s
  | sknp x => exact execSknp_sameHostState x s
  | ldVxK x => exact execLdVxK_sameHostState x s

theorem sameHostState_of_exec {i : Instr} {s t : State} (h : exec i s = .next t) : SameHostState s t := by
  obtain ⟨t', e, ht'⟩ := exec_sameHostState i s
  cases e.symm.trans h
  exact ht'

/-- A tick leaves the host's part of the state alone, whether it executes an instruction or faults before one. -/
theorem sameHostState_of_tick {s t : State} (h : tick s = .next t) : SameHostState s t := by
  obtain ⟨-, -, ⟨-, rfl⟩ | ⟨w, -, -, rfl⟩ | ⟨w, i, -, -, hx⟩⟩ := tick_next_cases h
  · exact .raise ..
  · exact .raise ..
  · exact sameHostState_of_exec hx

/-! ### The parameters across the host's operations (00_scope.md R7) -/

@[simp] theorem hostInit_params (s : State) : (hostInit s).params = s.params := rfl

@[simp] theorem hostLoad_params (p : List Byte) (s : State) : (hostLoad p s).params = s.params := by
  unfold hostLoad
  split_ifs <;> rfl

@[simp] theorem hostWriteKeys_params (k : Vector Bool 16) (s : State) :
    (hostWriteKeys k s).params = s.params := by
  unfold hostWriteKeys
  split_ifs <;> rfl

@[simp] theorem hostAdvanceTimers_params (s : State) : (hostAdvanceTimers s).params = s.params := by
  unfold hostAdvanceTimers
  split_ifs <;> rfl

@[simp] theorem hostSetVblank_params (b : Bool) (s : State) : (hostSetVblank b s).params = s.params := by
  unfold hostSetVblank
  split_ifs <;> rfl

theorem hostTick_params {s t : State} (h : hostTick s = .next t) : t.params = s.params := by
  cases hf : s.fault with
  | true =>
    rw [hostTick_faulted hf] at h
    cases h
    rfl
  | false =>
    rw [hostTick_of_unfaulted hf] at h
    exact (sameHostState_of_tick h).setting.1

theorem hostCall_params {c : HostCall} {s t : State} (h : hostCall c s = .next t) : t.params = s.params := by
  cases c with
  | init => cases h; exact hostInit_params s
  | load p => cases h; exact hostLoad_params p s
  | tick => exact hostTick_params h
  | writeKeys k => cases h; exact hostWriteKeys_params k s
  | advanceTimers => cases h; exact hostAdvanceTimers_params s
  | setVblank b => cases h; exact hostSetVblank_params b s

/-! ### The statements of 00_scope.md -/

/-- Settles O17: a tick leaves the host's part of the state alone, and each host call keeps the parameters. -/
theorem parametersNeverChange : Obligations.ParametersNeverChange := by
  intro s t h
  rcases step_next_cases h with ⟨-, ht⟩ | ⟨c, rest, -, hc⟩
  · exact (sameHostState_of_tick ht).setting.1
  · exact (hostCall_params hc :)

/-- Settles O8, by the two laws of `step` over the schedule. -/
theorem stepPerformsTheNextHostCall : Obligations.StepPerformsTheNextHostCall :=
  fun _ => ⟨step_nil, fun _ _ => step_cons⟩

end Sys2Proof.Machine
end

section
/-! SUPPORT. What an executed instruction can do, once: the ways to a next state, from which every frame and the
invariant are read off. -/

namespace Sys2Proof.Machine

/-- `Effect s i t`: one of the ways in which the instruction `i` goes from `s` to `t`. Every way says which fields it
writes; of the values only what the frames and the invariant need is kept: the bound of a jump's target (R102, R108),
the pushed and popped call sites (R101, R103), and the range of a store (R56). Whether `i` may take the way is said by
`writtenRegs`, `writesIndex` and `storedLength`. `exec_effect` ties it to `exec`. -/
inductive Effect (s : State) : Instr → State → Prop
  | fault (i : Instr) (c : FaultCause) (n : Nat) : Effect s i (raiseAt c i n s)
  | retry (i : Instr) : Effect s i s
  | jump (i : Instr) (a : Word) (ha : a.toNat ≤ 0x10FE) : Effect s i (s.setPc a)
  | skip (i : Instr) (c : Bool) : Effect s i (s.skipIf c)
  | call (nnn : Addr12) (h : s.sp.val < 16) : Effect s (.call nnn)
      { s with stack := s.stack.set s.sp.val s.pc h, sp := ⟨s.sp.val + 1, Nat.succ_lt_succ h⟩, pc := addressOf nnn }
  | ret (h : 0 < s.sp.val) : Effect s .ret
      { s with sp := ⟨s.sp.val - 1, by omega⟩, pc := s.stack[s.sp.val - 1]'(by omega) + 2 }
  | register (i : Instr) (x : Reg) (b : Byte) (h : writtenRegs i = [x]) : Effect s i (s.setV x b).advance
  | resultAndFlag (i : Instr) (x : Reg) (r : Byte) (c : Bool) (h : writtenRegs i = [x, VF]) :
      Effect s i (s.setResultAndFlag x r c).advance
  | random (x : Reg) (nn b : Byte) : Effect s (.rnd x nn) ({ s with freeIndex := s.freeIndex + 1 }.setV x b).advance
  | keyLatched (x : Reg) (k : Option (Fin 16)) : Effect s (.ldVxK x) { s with keyLatch := k }
  | keyStored (x : Reg) (b : Byte) : Effect s (.ldVxK x) ({ s with keyLatch := none }.setV x b).advance
  | delayTimer (x : Reg) (b : Byte) : Effect s (.ldDTVx x) { s with dt := b }.advance
  | soundTimer (x : Reg) (b : Byte) : Effect s (.ldSTVx x) { s with st := b }.advance
  | index (i : Instr) (a : Word) (h : writesIndex s.params i = true) : Effect s i (s.setI a).advance
  | store (i : Instr) (bs : List Byte) (a : Word) (hlen : bs.length = storedLength i)
      (htop : s.i.toNat + bs.length ≤ 4096) (ha : writesIndex s.params i = false → a = s.i) :
      Effect s i ((s.storeBytes s.i.toNat bs).setI a).advance
  | load (x : Reg) (v : Vector Byte 16) (a : Word) (hv : v = bulkLoaded x s)
      (ha : writesIndex s.params (.loadRegs x) = false → a = s.i) :
      Effect s (.loadRegs x) ({ s with v := v }.setI a).advance
  | clear : Effect s .cls { s with fb := blankFramebuffer }.advance
  | draw (x y : Reg) (n : Nat) (d : Drawing) : Effect s (.drw x y n) (drawCompleted d s)

/-! ### The operand facts the effects rest on -/

theorem addressOf_toNat_le (nnn : Addr12) : (addressOf nnn).toNat ≤ 4095 := by
  have := nnn.isLt
  simp only [addressOf, BitVec.toNat_ofNat]
  omega

theorem offsetTarget_toNat_le (nnn : Addr12) (s : State) : (offsetTarget nnn s).toNat ≤ 0x10FE := by
  have := nnn.isLt
  have := (s.getV 0).isLt
  rw [offsetTarget_toNat]
  omega

/-- A bulk transfer in MODERN leaves `I` (R144, R145). -/
theorem indexAfterBulk_modern {s : State} (x : Reg) (h : (s.params.compat == .legacy) = false) :
    indexAfterBulk x s = s.i := by
  unfold indexAfterBulk
  cases hc : s.params.compat with
  | legacy => simp [hc] at h
  | modern => rfl

/-- The range check adds only the fault. -/
theorem Effect.rangeChecked {s done : State} {i : Instr} {top : Nat} (h : top ≤ 4095 → Effect s i done) :
    Effect s i (rangeChecked i top s done) := by
  rcases rangeChecked_cases i top s done with ⟨-, e⟩ | ⟨hle, e⟩
  · rw [e]; exact .fault ..
  · rw [e]; exact h hle

/-! ### The instructions with more than one outcome -/

theorem execRet_effect (s : State) : ∃ t, execRet s = .next t ∧ Effect s .ret t := by
  unfold execRet
  cases h : s.pop with
  | none => exact ⟨_, rfl, .fault ..⟩
  | some r =>
    obtain ⟨site, t⟩ := r
    obtain ⟨hpos, rfl, rfl⟩ := pop_cases h
    exact ⟨_, rfl, .ret hpos⟩

theorem execCall_effect (nnn : Addr12) (s : State) : ∃ t, execCall nnn s = .next t ∧ Effect s (.call nnn) t := by
  unfold execCall
  cases h : s.push s.pc with
  | none => exact ⟨_, rfl, .fault ..⟩
  | some t =>
    obtain ⟨hlt, rfl⟩ := push_cases h
    exact ⟨_, rfl, .call nnn hlt⟩

theorem execDrw_effect (x y : Reg) (n : Nat) (s : State) :
    ∃ t, execDrw x y n s = .next t ∧ Effect s (.drw x y n) t := by
  unfold execDrw
  split_ifs
  · exact ⟨_, rfl, .retry _⟩
  · exact ⟨_, rfl, .draw ..⟩
  · exact ⟨_, rfl, .rangeChecked fun _ => .draw ..⟩

theorem execLdB_effect (x : Reg) (s : State) : ∃ t, execLdB x s = .next t ∧ Effect s (.ldB x) t :=
  ⟨_, rfl, .rangeChecked fun htop =>
    .store _ (bcdDigits (s.getV x)) s.i rfl (Nat.succ_le_succ htop) fun _ => rfl⟩

theorem execStoreRegs_effect (x : Reg) (s : State) : ∃ t, execStoreRegs x s = .next t ∧ Effect s (.storeRegs x) t :=
  ⟨_, rfl, .rangeChecked fun htop =>
    .store _ (bulkBytes x s) (indexAfterBulk x s) (length_bulkBytes x s)
      (length_bulkBytes x s ▸ Nat.succ_le_succ htop) (indexAfterBulk_modern x)⟩

theorem execLoadRegs_effect (x : Reg) (s : State) : ∃ t, execLoadRegs x s = .next t ∧ Effect s (.loadRegs x) t :=
  ⟨_, rfl, .rangeChecked fun _ => .load x (bulkLoaded x s) (indexAfterBulk x s) rfl (indexAfterBulk_modern x)⟩

theorem execSkp_effect (x : Reg) (s : State) : ∃ t, execSkp x s = .next t ∧ Effect s (.skp x) t := by
  unfold execSkp
  cases keyIndex x s with
  | none => exact ⟨_, rfl, .fault ..⟩
  | some k => exact ⟨_, rfl, .skip ..⟩

theorem execSknp_effect (x : Reg) (s : State) : ∃ t, execSknp x s = .next t ∧ Effect s (.sknp x) t := by
  unfold execSknp
  cases keyIndex x s with
  | none => exact ⟨_, rfl, .fault ..⟩
  | some k => exact ⟨_, rfl, .skip ..⟩

theorem execLdVxK_effect (x : Reg) (s : State) : ∃ t, execLdVxK x s = .next t ∧ Effect s (.ldVxK x) t := by
  unfold execLdVxK
  cases s.keyLatch with
  | none => exact ⟨_, rfl, .keyLatched ..⟩
  | some k =>
    cases keyWaitBlocked s with
    | true => exact ⟨_, rfl, .retry _⟩
    | false => exact ⟨_, rfl, .keyStored ..⟩

/-! ### Every instruction -/

/-- Every instruction answers a next state, which it reaches in one of the ways of `Effect`. -/
theorem exec_effect (i : Instr) (s : State) : ∃ t, exec i s = .next t ∧ Effect s i t := by
  cases i with
  | cls => exact ⟨_, rfl, .clear⟩
  | ret => exact execRet_effect s
  | jp nnn => exact ⟨_, rfl, .jump _ _ (Nat.le_trans (addressOf_toNat_le nnn) (by decide))⟩
  | jpV0 nnn => exact ⟨_, rfl, .jump _ _ (offsetTarget_toNat_le nnn s)⟩
  | call nnn => exact execCall_effect nnn s
  | seImm _ _ | sneImm _ _ | seReg _ _ | sneReg _ _ => exact ⟨_, rfl, .skip ..⟩
  | ldImm _ _ | addImm _ _ | ldReg _ _ | orReg _ _ | andReg _ _ | xorReg _ _ | ldVxDT _ =>
    exact ⟨_, rfl, .register _ _ _ rfl⟩
  | addReg _ _ | subReg _ _ | shr _ _ | subn _ _ | shl _ _ => exact ⟨_, rfl, .resultAndFlag _ _ _ _ rfl⟩
  | rnd x nn => exact ⟨_, rfl, .random ..⟩
  | drw x y n => exact execDrw_effect x y n s
  | skp x => exact execSkp_effect x s
  | sknp x => exact execSknp_effect x s
  | ldVxK x => exact execLdVxK_effect x s
  | ldDTVx x => exact ⟨_, rfl, .delayTimer ..⟩
  | ldSTVx x => exact ⟨_, rfl, .soundTimer ..⟩
  | ldI _ | addI _ | ldF _ => exact ⟨_, rfl, .index _ _ rfl⟩
  | ldB x => exact execLdB_effect x s
  | storeRegs x => exact execStoreRegs_effect x s
  | loadRegs x => exact execLoadRegs_effect x s

theorem effect_of_exec {i : Instr} {s t : State} (h : exec i s = .next t) : Effect s i t := by
  obtain ⟨t', e, ht'⟩ := exec_effect i s
  cases e.symm.trans h
  exact ht'

end Sys2Proof.Machine
end

section
/-! SUPPORT. The frames of 10_state.md: what an instruction leaves as it was, read off the ways of `Effect`. -/

namespace Sys2Proof.Machine

variable {i : Instr} {s t : State}

theorem sameRegsExcept_of_v (h : t.v = s.v) (ds : List Reg) : sameRegsExcept ds s t :=
  fun r _ => getV_congr h r

/-- A write of a register that the list names is within the frame. -/
theorem sameRegsExcept_set {ds : List Reg} {x : Reg} {b : Byte} (h : t.v = s.v.set x b)
    (hx : x ∈ ds) : sameRegsExcept ds s t := fun r hr =>
  (getV_congr (s := s.setV x b) h r).trans (getV_setV_other s b fun e => hr (e ▸ hx))

theorem sameRegsExcept_setResultAndFlag {ds : List Reg} {x : Reg} {r : Byte} {c : Bool}
    (h : t.v = (s.setResultAndFlag x r c).v) (hx : x ∈ ds) (hf : VF ∈ ds) : sameRegsExcept ds s t := fun q hq =>
  (sameRegsExcept_set (s := s.setV x r) h hf q hq).trans (sameRegsExcept_set rfl hx q hq)

/-- The bulk load leaves the registers above `x` (R145). -/
theorem sameRegsExcept_bulkLoaded {x : Reg} (h : t.v = bulkLoaded x s) :
    sameRegsExcept (writtenRegs (.loadRegs x)) s t := by
  intro r hr
  have hlt : ¬ r ≤ x := by simpa [writtenRegs] using hr
  rw [State.getV, h, bulkLoaded_getElem, if_neg hlt]

theorem Effect.regs (h : Effect s i t) : sameRegsExcept (writtenRegs i) s t := by
  cases h with
  | register _ x b hw => exact sameRegsExcept_set rfl (by simp [hw])
  | resultAndFlag _ x r c hw => exact sameRegsExcept_setResultAndFlag rfl (by simp [hw]) (by simp [hw])
  | random x nn b => exact sameRegsExcept_set rfl (List.mem_singleton_self x)
  | keyStored x b => exact sameRegsExcept_set rfl (List.mem_singleton_self x)
  | load x v a hv => exact sameRegsExcept_bulkLoaded hv
  | draw x y n d => exact sameRegsExcept_set rfl (List.mem_singleton_self VF)
  | skip _ c => exact sameRegsExcept_of_v (skipIf_v c s) _
  | fault | retry | jump | call | ret | keyLatched | delayTimer | soundTimer | index | store | clear =>
    exact sameRegsExcept_of_v rfl _

theorem Effect.i_eq (h : Effect s i t) (hi : writesIndex s.params i = false) : t.i = s.i := by
  cases h with
  | index _ a hw => rw [hw] at hi; cases hi
  | store _ bs a _ _ ha => exact ha hi
  | load x v a _ ha => exact ha hi
  | skip _ c => exact skipIf_i c s
  | fault | retry | jump | call | ret | register | resultAndFlag | random | keyLatched | keyStored
  | delayTimer | soundTimer | clear | draw => rfl

/-- An instruction leaves the stack and its depth, or is a `CALL` that pushes its own address, or a `RET` that
counts down (R26, R27). -/
theorem Effect.stack_cases (h : Effect s i t) :
    (t.stack = s.stack ∧ t.sp = s.sp) ∨
    (∃ nnn, i = .call nnn ∧ ∃ hlt : s.sp.val < 16, t.stack = s.stack.set s.sp.val s.pc hlt ∧
      t.sp.val = s.sp.val + 1) ∨
    (i = .ret ∧ t.stack = s.stack ∧ t.sp.val + 1 = s.sp.val) := by
  cases h with
  | call nnn hlt => exact .inr (.inl ⟨nnn, rfl, hlt, rfl, rfl⟩)
  | ret hpos => exact .inr (.inr ⟨rfl, rfl, Nat.sub_add_cancel hpos⟩)
  | skip _ c => exact .inl ⟨skipIf_stack c s, skipIf_sp c s⟩
  | fault | retry | jump | register | resultAndFlag | random | keyLatched | keyStored | delayTimer | soundTimer
  | index | store | load | clear | draw => exact .inl ⟨rfl, rfl⟩

theorem Effect.devices (h : Effect s i t) :
    (t.fb = s.fb ∨ i = .cls ∨ ∃ x y n, i = .drw x y n) ∧
    (t.vblank = s.vblank ∨ ∃ x y n, i = .drw x y n) ∧
    (t.dt = s.dt ∨ ∃ x, i = .ldDTVx x) ∧
    (t.st = s.st ∨ ∃ x, i = .ldSTVx x) ∧
    (t.keyLatch = s.keyLatch ∨ ∃ x, i = .ldVxK x) := by
  cases h with
  | clear => exact ⟨.inr (.inl rfl), .inl rfl, .inl rfl, .inl rfl, .inl rfl⟩
  | draw x y n d => exact ⟨.inr (.inr ⟨x, y, n, rfl⟩), .inr ⟨x, y, n, rfl⟩, .inl rfl, .inl rfl, .inl rfl⟩
  | delayTimer x b => exact ⟨.inl rfl, .inl rfl, .inr ⟨x, rfl⟩, .inl rfl, .inl rfl⟩
  | soundTimer x b => exact ⟨.inl rfl, .inl rfl, .inl rfl, .inr ⟨x, rfl⟩, .inl rfl⟩
  | keyLatched x k => exact ⟨.inl rfl, .inl rfl, .inl rfl, .inl rfl, .inr ⟨x, rfl⟩⟩
  | keyStored x b => exact ⟨.inl rfl, .inl rfl, .inl rfl, .inl rfl, .inr ⟨x, rfl⟩⟩
  | skip _ c =>
    exact ⟨.inl (skipIf_fb c s), .inl (skipIf_vblank c s), .inl (skipIf_dt c s), .inl (skipIf_st c s),
      .inl (skipIf_keyLatch c s)⟩
  | fault | retry | jump | call | ret | register | resultAndFlag | random | index | store | load =>
    exact ⟨.inl rfl, .inl rfl, .inl rfl, .inl rfl, .inl rfl⟩

theorem Effect.freeIndex (h : Effect s i t) : t.freeIndex = s.freeIndex ∨ ∃ x nn, i = .rnd x nn := by
  cases h with
  | random x nn b => exact .inr ⟨x, nn, rfl⟩
  | skip _ c => exact .inl (skipIf_freeIndex c s)
  | fault | retry | jump | call | ret | register | resultAndFlag | keyLatched | keyStored | delayTimer | soundTimer
  | index | store | load | clear | draw => exact .inl rfl

/-- An instruction leaves the status record alone, or its next state is its fault (R173). -/
theorem Effect.status_cases (h : Effect s i t) : sameStatus s t ∨ ∃ c n, t = raiseAt c i n s := by
  cases h with
  | fault _ c n => exact .inr ⟨c, n, rfl⟩
  | skip _ c => cases c <;> exact .inl rfl
  | retry | jump | call | ret | register | resultAndFlag | random | keyLatched | keyStored | delayTimer | soundTimer
  | index | store | load | clear | draw => exact .inl rfl

/-- The canonical form of memory is kept: a store has passed its range check (R56). -/
theorem Effect.wf (h : Effect s i t) (hm : s.mem.wf s.params.font) : t.mem.wf t.params.font := by
  cases h with
  | store _ bs a _ htop => exact wf_storeBytes s hm _ bs htop
  | skip _ c => rw [skipIf_mem, skipIf_params]; exact hm
  | fault | retry | jump | call | ret | register | resultAndFlag | random | keyLatched | keyStored | delayTimer
  | soundTimer | index | load | clear | draw => exact hm

/-! ### The statements -/

/-- Settles O44: every way an instruction takes writes only registers of its list. -/
theorem onlyNamedRegistersAreWritten : Obligations.OnlyNamedRegistersAreWritten :=
  fun _ _ _ h => (effect_of_exec h).regs

/-- Settles O46: the ways that write `I` are those of `writesIndex`. -/
theorem onlyIndexInstructionsWriteIndex : Obligations.OnlyIndexInstructionsWriteIndex :=
  fun _ _ _ h => (effect_of_exec h).i_eq

/-- Settles O47: only a push changes a slot, and it is the one at `SP`. -/
theorem onlyCallAndReturnTouchTheStack : Obligations.OnlyCallAndReturnTouchTheStack := by
  intro i s t h
  rcases (effect_of_exec h).stack_cases with ⟨hst, hsp⟩ | ⟨nnn, rfl, hlt, hst, hsp⟩ | ⟨rfl, hst, hsp⟩
  · exact ⟨fun j => .inl (by rw [hst]), .inl hsp⟩
  · refine ⟨fun j => ?_, .inr (.inl ⟨⟨nnn, rfl⟩, hsp⟩)⟩
    by_cases hj : j.val = s.sp.val
    · exact .inr ⟨⟨nnn, rfl⟩, hj⟩
    · exact .inl (by rw [hst]; exact Vector.getElem_set_ne _ _ (Ne.symm hj))
  · exact ⟨fun j => .inl (by rw [hst]), .inr (.inr ⟨rfl, hsp⟩)⟩

/-- Settles O48: the ways that write a device belong to the instructions of its rule. -/
theorem onlyNamedInstructionsTouchDevices : Obligations.OnlyNamedInstructionsTouchDevices :=
  fun _ _ _ h => (effect_of_exec h).devices

/-- Settles O49: the frame of the host's part of the state, and the counter by the ways of `Effect`. -/
theorem instructionsLeaveHostStateAlone : Obligations.InstructionsLeaveHostStateAlone := by
  intro i s t h
  obtain ⟨hkeys, hloaded, hsetting⟩ := sameHostState_of_exec h
  exact ⟨hkeys, hloaded, hsetting, (effect_of_exec h).freeIndex⟩

end Sys2Proof.Machine
end

section
/-! SUPPORT. Equal reads make equal canonical memories. -/

namespace Sys2Proof.Machine

variable {font : Vector Byte 80}

/-- A canonical memory reads as after reset below its first listed address. -/
theorem Memory.read_below {b : Nat} {w : Byte} {m : Memory} (h : Memory.wf font ((b, w) :: m)) {a : Nat}
    (ha : a < b) : Memory.read font ((b, w) :: m) a = unlistedByte font a := by
  obtain ⟨hlo, -⟩ := Memory.rising_cons h.1
  refine Memory.read_unlisted _ a fun p hp => ?_
  rcases List.mem_cons.1 hp with rfl | hp
  · simp only; omega
  · have := hlo p hp; omega

/-- The rest of a canonical memory does not list the first address. -/
theorem Memory.read_rest {b : Nat} {w : Byte} {m : Memory} (h : Memory.wf font ((b, w) :: m)) :
    Memory.read font m b = unlistedByte font b := by
  obtain ⟨hlo, -⟩ := Memory.rising_cons h.1
  exact Memory.read_unlisted m b fun p hp => (Nat.ne_of_lt (hlo p hp)).symm

/-- The first listed address is not below that of a canonical memory that reads alike: there it would read as
after reset. -/
theorem Memory.first_le {b c : Nat} {w v : Byte} {m n : Memory} (h : Memory.wf font ((b, w) :: m))
    (h' : Memory.wf font ((c, v) :: n))
    (hr : Memory.read font ((b, w) :: m) b = Memory.read font ((c, v) :: n) b) : c ≤ b := by
  by_contra hlt
  exact Memory.read_head h (hr.trans (Memory.read_below h' (by omega)))

/-- Memories with the same first entry that read alike have rests that read alike. -/
theorem Memory.rest_reads {b : Nat} {w : Byte} {m n : Memory} (h : Memory.wf font ((b, w) :: m))
    (h' : Memory.wf font ((b, w) :: n))
    (hr : ∀ a, Memory.read font ((b, w) :: m) a = Memory.read font ((b, w) :: n) a) (a : Nat) :
    Memory.read font m a = Memory.read font n a := by
  by_cases ha : a = b
  · rw [ha, Memory.read_rest h, Memory.read_rest h']
  · simpa [Memory.read_cons, ha] using hr a

/-- Canonical memories that read alike are equal: they list the same first entry, and their rests read alike. -/
theorem Memory.ext_of_wf {m n : Memory} (hm : Memory.wf font m) (hn : Memory.wf font n)
    (hr : ∀ a, Memory.read font m a = Memory.read font n a) : m = n := by
  induction m generalizing n with
  | nil =>
    cases n with
    | nil => rfl
    | cons q n => exact absurd (hr q.1).symm (Memory.read_head hn)
  | cons p m ih =>
    cases n with
    | nil => exact absurd (hr p.1) (Memory.read_head hm)
    | cons q n =>
      obtain ⟨b, w⟩ := p
      obtain ⟨c, v⟩ := q
      obtain rfl : b = c :=
        Nat.le_antisymm (Memory.first_le hn hm (hr c).symm) (Memory.first_le hm hn (hr b))
      obtain rfl : w = v := by simpa [Memory.read_cons] using hr b
      rw [ih (Memory.wf_tail hm) (Memory.wf_tail hn) (Memory.rest_reads hm hn hr)]

/-- Settles O51, by induction on the lists of entries. -/
theorem canonicalMemoriesAreDeterminedByReads : Obligations.CanonicalMemoriesAreDeterminedByReads :=
  fun _ _ _ => Memory.ext_of_wf

end Sys2Proof.Machine
end

section
/-! SUPPORT. The created state and the invariant `State.Coherent`: it holds after reset, and every instruction, tick,
host operation and step keeps it. -/

namespace Sys2Proof.Machine

/-! ### The created state (10_state.md R37, 70_reset_and_hazards.md R200) -/

/-- A created machine with these host calls to come: what `init` answers, and reset with none. -/
def State.createdWith (p : Params) (n : Nat) (calls : List HostCall) : State :=
  { State.created p n with hostCalls := calls }

theorem hostInit_eq (s : State) : hostInit s = State.createdWith s.params s.freeIndex s.hostCalls := rfl

theorem reset_eq : State.reset = State.createdWith resetParams 0 [] := rfl

theorem createdWith_getV (p : Params) (n : Nat) (calls : List HostCall) (x : Reg) :
    (State.createdWith p n calls).getV x = 0 :=
  Vector.getElem_replicate x.isLt

theorem createdWith_stack (p : Params) (n : Nat) (calls : List HostCall) (j : Fin 16) :
    (State.createdWith p n calls).stack[j] = 0 :=
  Vector.getElem_replicate j.isLt

theorem createdWith_keys (p : Params) (n : Nat) (calls : List HostCall) (k : Fin 16) :
    (State.createdWith p n calls).keys[k] = false :=
  Vector.getElem_replicate k.isLt

theorem createdWith_readByte_font (p : Params) (n : Nat) (calls : List HostCall) (a : Fin 80) :
    (State.createdWith p n calls).readByte a.val = p.font[a] :=
  dif_pos a.isLt

theorem createdWith_readByte_above (p : Params) (n : Nat) (calls : List HostCall) {a : Nat} (ha : 80 ≤ a) :
    (State.createdWith p n calls).readByte a = 0 :=
  dif_neg (Nat.not_lt.2 ha)

theorem createdWith_cellAt (p : Params) (n : Nat) (calls : List HostCall) (cx cy : Nat) :
    cellAt (State.createdWith p n calls).fb cx cy = false :=
  cellAt_blank cx cy

theorem createdWith_coherent (p : Params) (n : Nat) (calls : List HostCall) :
    (State.createdWith p n calls).Coherent where
  memory := Memory.wf_nil
  pcReach h := nomatch h
  callSites _ hj := absurd hj (Nat.not_lt_zero _)
  unfaulted _ := ⟨rfl, rfl, rfl, rfl⟩
  faulted h := nomatch h
  unloaded _ := ⟨rfl, rfl, rfl, rfl, rfl, rfl, rfl, rfl⟩

/-- Settles O54: what `init` answers and reset are created machines. -/
theorem initEstablishesTheResetValues : Obligations.InitEstablishesTheResetValues := by
  refine ⟨fun s => ⟨_, rfl, rfl, rfl⟩, fun t ht => ?_⟩
  obtain ⟨p, n, calls, rfl⟩ : ∃ p n calls, t = State.createdWith p n calls := by
    rcases ht with ⟨s, hs⟩ | rfl
    · cases hs; exact ⟨_, _, _, hostInit_eq s⟩
    · exact ⟨_, _, _, reset_eq⟩
  exact ⟨createdWith_getV p n calls, rfl, createdWith_stack p n calls, rfl, createdWith_readByte_font p n calls,
    fun _ => createdWith_readByte_above p n calls, createdWith_cellAt p n calls, rfl, rfl,
    createdWith_keys p n calls, rfl, rfl, rfl⟩

/-- Settles O57: reset is a created machine. -/
theorem resetIsCoherent : Obligations.ResetIsCoherent := createdWith_coherent resetParams 0 []

/-! ### Faults keep the invariant -/

theorem codeOf_ne_zero (c : FaultCause) : codeOf c ≠ 0 := by cases c <;> decide

theorem State.Coherent.raise {s : State} (h : s.Coherent) (c : FaultCause) (w : Word) (n : Nat) :
    (raise c w n s).Coherent :=
  { h with unfaulted := nofun, faulted := fun _ => codeOf_ne_zero c }

theorem State.Coherent.raiseLoadTooLarge {s : State} (h : s.Coherent) (n : Nat) : (raiseLoadTooLarge n s).Coherent :=
  { h with unfaulted := nofun, faulted := fun _ => codeOf_ne_zero .loadTooLarge }

/-! ### Instructions and ticks keep the invariant -/

section
variable {i : Instr} {s t : State}

/-- The word after a word that lies in memory, `k` bytes on. -/
theorem toNat_add_le {a k : Word} (ha : a.toNat ≤ 4094) (hk : k.toNat ≤ 4) : (a + k).toNat ≤ 0x10FE := by
  rw [BitVec.toNat_add]
  omega

theorem skipIf_pc_le {c : Bool} (hpc : s.pc.toNat ≤ 4094) : (s.skipIf c).pc.toNat ≤ 0x10FE := by
  cases c <;> exact toNat_add_le hpc (by decide)

/-- From a fetched instruction `PC` reaches at most the highest target of `JP V0` (R24, R101, R108). -/
theorem Effect.pc_le (h : Effect s i t) (hpc : s.pc.toNat ≤ 4094)
    (hsites : ∀ j : Fin 16, j.val < s.sp.val → s.stack[j].toNat ≤ 4094) : t.pc.toNat ≤ 0x10FE := by
  cases h with
  | jump _ a ha => exact ha
  | skip _ c => exact skipIf_pc_le hpc
  | call nnn hlt => exact Nat.le_trans (addressOf_toNat_le nnn) (by decide)
  | ret hpos => exact toNat_add_le (hsites ⟨s.sp.val - 1, by omega⟩ (Nat.sub_one_lt_of_lt hpos)) (by decide)
  | fault | retry | keyLatched => exact Nat.le_trans hpc (by decide)
  | register | resultAndFlag | random | keyStored | delayTimer | soundTimer | index | store | load | clear | draw =>
    exact toNat_add_le hpc (by decide)

/-- A `CALL` pushes the address it was fetched from, so every call site in use lies in memory (R101). -/
theorem Effect.callSites (h : Effect s i t) (hpc : s.pc.toNat ≤ 4094)
    (hsites : ∀ j : Fin 16, j.val < s.sp.val → s.stack[j].toNat ≤ 4094) (j : Fin 16) (hj : j.val < t.sp.val) :
    t.stack[j].toNat ≤ 4094 := by
  rcases h.stack_cases with ⟨hst, hsp⟩ | ⟨nnn, -, hlt, hst, hsp⟩ | ⟨-, hst, hsp⟩
  · rw [hst]
    exact hsites j (hsp ▸ hj)
  · simp only [hst, Fin.getElem_fin, Vector.getElem_set]
    split
    · exact hpc
    · exact hsites j (by omega)
  · rw [hst]
    exact hsites j (by omega)

/-- An executed instruction keeps the invariant. -/
theorem State.Coherent.exec (h : s.Coherent) (hloaded : s.loaded = true) (hpc : s.pc.toNat ≤ 4094)
    (hx : exec i s = .next t) : t.Coherent := by
  have he := effect_of_exec hx
  rcases he.status_cases with hs | ⟨c, n, rfl⟩
  · simp only [sameStatus, statusRecord, StatusRecord.mk.injEq] at hs
    obtain ⟨hl, hf, hcode, hfpc, hword, hinfo⟩ := hs
    exact {
      memory := he.wf h.memory
      pcReach := fun _ => he.pc_le hpc h.callSites
      callSites := he.callSites hpc h.callSites
      unfaulted := by rw [hf, hcode, hfpc, hword, hinfo]; exact h.unfaulted
      faulted := by rw [hf, hcode]; exact h.faulted
      unloaded := fun hnot => by rw [hl, hloaded] at hnot; cases hnot }
  · exact h.raise ..

theorem State.Coherent.tick (h : s.Coherent) (ht : tick s = .next t) : t.Coherent := by
  obtain ⟨-, hloaded, ⟨-, rfl⟩ | ⟨w, -, -, rfl⟩ | ⟨w, i, hw, -, hx⟩⟩ := tick_next_cases ht
  · exact h.raise ..
  · exact h.raise ..
  · exact h.exec hloaded (fetch_some hw) hx

end

/-! ### The host's operations keep the invariant -/

theorem State.Coherent.withHostCalls {s : State} (h : s.Coherent) (calls : List HostCall) :
    { s with hostCalls := calls }.Coherent := { h with }

theorem State.Coherent.hostTick {s t : State} (h : s.Coherent) (ht : hostTick s = .next t) : t.Coherent := by
  cases hf : s.fault with
  | true =>
    rw [hostTick_faulted hf] at ht
    cases ht
    exact h
  | false =>
    rw [hostTick_of_unfaulted hf] at ht
    exact h.tick ht

/-- A program that fits ends within the memory (R202), and one that does not is not copied (R203). -/
theorem State.Coherent.hostLoad {s : State} (h : s.Coherent) (p : List Byte) : (hostLoad p s).Coherent := by
  cases hf : s.fault with
  | true => rwa [hostLoad_faulted p hf]
  | false =>
    rcases Nat.lt_or_ge 3584 p.length with hp | hp
    · rw [hostLoad_tooLarge hf hp]
      exact h.raiseLoadTooLarge _
    · rw [hostLoad_fits hf hp]
      exact { h with
        memory := wf_storeBytes s h.memory 0x200 p (by omega)
        pcReach := fun _ => (by decide : (0x200#16).toNat ≤ 0x10FE)
        unloaded := nofun }

theorem State.Coherent.hostWriteKeys {s : State} (h : s.Coherent) (k : Vector Bool 16) :
    (hostWriteKeys k s).Coherent := by
  unfold Machine.hostWriteKeys
  split_ifs
  exacts [h, { h with }]

theorem State.Coherent.hostSetVblank {s : State} (h : s.Coherent) (b : Bool) : (hostSetVblank b s).Coherent := by
  unfold Machine.hostSetVblank
  split_ifs
  exacts [h, { h with }]

/-- Timers at 0 stay at 0, so nothing has run before the first load still (R183, R204). -/
theorem State.Coherent.hostAdvanceTimers {s : State} (h : s.Coherent) : (hostAdvanceTimers s).Coherent := by
  unfold Machine.hostAdvanceTimers
  split_ifs
  · exact h
  · refine { h with unloaded := fun hl => ?_ }
    obtain ⟨hmem, hv, hi, hsp, hfb, hdt, hst, hk⟩ := h.unloaded hl
    exact ⟨hmem, hv, hi, hsp, hfb, if_pos hdt, if_pos hst, hk⟩

theorem State.Coherent.hostCall {c : HostCall} {s t : State} (h : s.Coherent) (hc : hostCall c s = .next t) :
    t.Coherent := by
  cases c with
  | init => cases hc; exact createdWith_coherent ..
  | load p => cases hc; exact h.hostLoad p
  | tick => exact h.hostTick hc
  | writeKeys k => cases hc; exact h.hostWriteKeys k
  | advanceTimers => cases hc; exact h.hostAdvanceTimers
  | setVblank b => cases hc; exact h.hostSetVblank b

/-- Settles O58: a tick keeps the invariant, and so does each host call on the state without it. -/
theorem everyStepKeepsCoherence : Obligations.EveryStepKeepsCoherence := by
  intro s t h hs
  rcases step_next_cases hs with ⟨-, ht⟩ | ⟨c, rest, -, hc⟩
  · exact h.tick ht
  · exact (h.withHostCalls rest).hostCall hc

end Sys2Proof.Machine
end

section
/-! SUPPORT. Memory and the fetch (20_memory.md): no instruction writes a byte it does not store, a stored word is
fetched as it was stored, and a running machine executes the word it fetches or faults above the memory. -/

namespace Sys2Proof.Machine

/-! ### What an instruction leaves of memory (R50, R52) -/

theorem sameMemoryExcept_of_mem {s t : State} (hm : t.mem = s.mem) (hp : t.params = s.params) (a n : Nat) :
    sameMemoryExcept a n s t :=
  fun b _ => readByte_congr hm hp b

theorem sameMemoryExcept_storeBytes (s : State) (a : Nat) (bs : List Byte) :
    sameMemoryExcept a bs.length s (s.storeBytes a bs) :=
  fun b hb => readByte_storeBytes_other s a bs b hb

theorem Effect.memory {i : Instr} {s t : State} (h : Effect s i t) :
    sameMemoryExcept s.i.toNat (storedLength i) s t := by
  cases h with
  | store _ bs a hlen => exact hlen ▸ sameMemoryExcept_storeBytes s s.i.toNat bs
  | skip _ c => exact sameMemoryExcept_of_mem (skipIf_mem c s) (skipIf_params c s) _ _
  | fault | retry | jump | call | ret | register | resultAndFlag | random | keyLatched | keyStored | delayTimer
  | soundTimer | index | load | clear | draw => exact sameMemoryExcept_of_mem rfl rfl _ _

/-- Settles O45: of the ways of `Effect`, only a store writes memory, and it writes `storedLength` bytes from `I`. -/
theorem onlyTheStoredBytesAreWritten : Obligations.OnlyTheStoredBytesAreWritten :=
  fun _ _ _ h => (effect_of_exec h).memory

/-! ### The fetch (R54, R63) -/

theorem fetch_of_bytes {s : State} {w : Word} (hpc : s.pc.toNat ≤ 4094)
    (hw : w.toNat = (s.readByte s.pc.toNat).toNat * 256 + (s.readByte (s.pc.toNat + 1)).toNat) :
    s.fetch = some w := by
  rw [fetch_of_le s hpc]
  exact congrArg some (BitVec.eq_of_toNat_eq ((wordOfBytes_toNat _ _).trans hw.symm))

theorem readByte_storeBytes_pair (s : State) (hm : s.mem.wf s.params.font) (a : Nat) (hi lo : Byte) :
    (s.storeBytes a [hi, lo]).readByte a = hi ∧ (s.storeBytes a [hi, lo]).readByte (a + 1) = lo := by
  simp [readByte_storeBytes s hm]

/-- Settles O52: the fetch reads the two stored bytes, which make the word again. -/
theorem storedWordIsFetched : Obligations.StoredWordIsFetched := by
  intro s w a hm ha
  obtain ⟨hhi, hlo⟩ := readByte_storeBytes_pair s hm a.toNat
    (BitVec.ofNat 8 (w.toNat / 256)) (BitVec.ofNat 8 (w.toNat % 256))
  rw [fetch_of_le _ ha]
  simp only [setPc_pc, readByte_setPc, hhi, hlo, wordOfBytes_wordBytes]

/-! ### The step of a running machine (60_exceptions.md R170) -/

theorem tick_running {s : State} (hl : s.loaded = true) (hf : s.fault = false) : tick s = fetchDecodeExecute s := by
  simp [tick, hl, hf]

/-- A running machine fetches, decodes and executes in its own tick as in the host's call of `tick`. -/
theorem step_running {s : State} (hl : s.loaded = true) (hf : s.fault = false) :
    (s.hostCalls = [] → step s = fetchDecodeExecute s) ∧
    (∀ rest, s.hostCalls = .tick :: rest → step s = fetchDecodeExecute { s with hostCalls := rest }) := by
  refine ⟨fun hc => (step_nil hc).trans (tick_running hl hf), fun rest hc => ?_⟩
  calc step s = hostTick { s with hostCalls := rest } := step_cons hc
    _ = tick { s with hostCalls := rest } := hostTick_of_unfaulted hf
    _ = fetchDecodeExecute { s with hostCalls := rest } := tick_running hl hf

theorem fetchDecodeExecute_of_decode {s : State} {w : Word} {i : Instr} (hw : s.fetch = some w)
    (hd : decodeWord w = some i) : fetchDecodeExecute s = exec i s := by
  simp only [fetchDecodeExecute, hw, hd]

/-- `raise` makes the five writes of R173, with the code of the cause and the saturated information (R174). -/
theorem raise_eq_faultedWith (c : FaultCause) (word : Word) (info : Nat) (s : State) :
    raise c word info s = s.faultedWith (codeOf c) word (saturate16 info) := rfl

/-- A fetch above the memory faults with the word 0 and `PC` as the diagnostic, which needs no saturation (R174). -/
theorem fetchDecodeExecute_above {s : State} (h : 4095 ≤ s.pc.toNat) :
    fetchDecodeExecute s = .next (s.faultedWith 5 0 s.pc) := by
  simp only [fetchDecodeExecute, fetch_above s h, raise_eq_faultedWith, saturate16_word, codeOf]

/-- Settles O7: the fetch reads the word of the two bytes, in either schedule. -/
theorem stepRunsTheDecodedInstruction : Obligations.StepRunsTheDecodedInstruction := by
  intro s w i hl hf hpc hw hd
  obtain ⟨hnil, htick⟩ := step_running hl hf
  have hfetch : s.fetch = some w := fetch_of_bytes hpc hw
  exact ⟨fun hc => (hnil hc).trans (fetchDecodeExecute_of_decode hfetch hd),
    fun rest hc => (htick rest hc).trans
      (fetchDecodeExecute_of_decode ((fetch_congr rfl rfl rfl).trans hfetch) hd)⟩

/-- Settles O9: there is no word to fetch at or above 4095, in either schedule. -/
theorem fetchBeyondMemoryFaults : Obligations.FetchBeyondMemoryFaults := by
  intro s hl hf hpc
  obtain ⟨hnil, htick⟩ := step_running hl hf
  exact ⟨fun hc => (hnil hc).trans (fetchDecodeExecute_above hpc),
    fun rest hc => (htick rest hc).trans (fetchDecodeExecute_above hpc)⟩

end Sys2Proof.Machine
end

section
/-! SUPPORT. The decoder and the opcode map (30_encoding.md R73, R74): a word from its fields, the words of a row by
their fields, and what each row says of the decoder and of the encoder. -/

namespace Sys2Proof

/-! ### A word from its fields (R71) -/

theorem packXYN_fields (w : Word) : packXYN (fieldOp w).toNat (fieldX w) (fieldY w) (fieldN w).toNat = w :=
  BitVec.eq_of_toNat_eq <|
    (packXYN_toNat (fieldOp w).isLt (fieldX w).isLt (fieldY w).isLt (fieldN w).isLt).trans (word_toNat_fields w).symm

theorem packXNN_fields (w : Word) : packXNN (fieldOp w).toNat (fieldX w) (fieldNN w).toNat = w := by
  apply BitVec.eq_of_toNat_eq
  rw [packXNN_toNat (fieldOp w).isLt (fieldX w).isLt (fieldNN w).isLt, word_toNat_fields, fieldNN_split]; omega

theorem packNNN_fields (w : Word) : packNNN (fieldOp w).toNat (fieldNNN w).toNat = w := by
  apply BitVec.eq_of_toNat_eq
  rw [packNNN_toNat (fieldOp w).isLt (fieldNNN w).isLt, word_toNat_fields, fieldNNN_split, fieldNN_split]; omega

/-! ### A row's match as conditions on fields (R74) -/

theorem append_inj {m n : Nat} {a c : BitVec m} {b d : BitVec n} : a ++ b = c ++ d ↔ a = c ∧ b = d := by
  refine ⟨fun h => ⟨?_, ?_⟩, fun ⟨ha, hb⟩ => ha ▸ hb ▸ rfl⟩
  · rw [← BitVec.extractLsb'_append_eq_left (a := a) (b := b), h, BitVec.extractLsb'_append_eq_left]
  · rw [← BitVec.extractLsb'_append_eq_right (a := a) (b := b), h, BitVec.extractLsb'_append_eq_right]

theorem and_F000_eq_iff {w : Word} {op : BitVec 4} : w &&& 0xF000#16 = op ++ 0x000#12 ↔ fieldOp w = op := by
  rw [word_and_F000, BitVec.append_left_inj]

theorem and_F00F_eq_iff {w : Word} {op n : BitVec 4} :
    w &&& 0xF00F#16 = op ++ 0x00#8 ++ n ↔ fieldOp w = op ∧ fieldN w = n := by
  rw [word_and_F00F, append_inj, BitVec.append_left_inj]

theorem and_F0FF_eq_iff {w : Word} {op : BitVec 4} {nn : Byte} :
    w &&& 0xF0FF#16 = op ++ 0x0#4 ++ nn ↔ fieldOp w = op ∧ fieldNN w = nn := by
  rw [word_and_F0FF, append_inj, BitVec.append_left_inj]

/-! ### The dispatch on the family (R73) -/

/-- The families in which every word is an instruction: R77 names no word of theirs. -/
def fullFamilies : List (BitVec 4) := [0x1#4, 0x2#4, 0x3#4, 0x4#4, 0x6#4, 0x7#4, 0xA#4, 0xB#4, 0xC#4, 0xD#4]

theorem family_cases (op : BitVec 4) :
    op ∈ fullFamilies ∨ op = 0x0#4 ∨ op = 0x5#4 ∨ op = 0x8#4 ∨ op = 0x9#4 ∨ op = 0xE#4 ∨ op = 0xF#4 := by
  revert op; decide

theorem ne_of_mem_fullFamilies {op : BitVec 4} (h : op ∈ fullFamilies) :
    op ≠ 0x0#4 ∧ op ≠ 0x5#4 ∧ op ≠ 0x8#4 ∧ op ≠ 0x9#4 ∧ op ≠ 0xE#4 ∧ op ≠ 0xF#4 := by
  revert op; decide

section
variable {w : Word}

theorem decodeWord_family0 (h : fieldOp w = 0x0#4) : decodeWord w = decodeFamily0 w := by
  simp only [decodeWord, h]

theorem decodeWord_family5 (h : fieldOp w = 0x5#4) :
    decodeWord w = if fieldN w = 0#4 then some (.seReg (fieldX w) (fieldY w)) else none := by
  simp only [decodeWord, h]

theorem decodeWord_family8 (h : fieldOp w = 0x8#4) :
    decodeWord w = decodeFamily8 (fieldX w) (fieldY w) (fieldN w) := by
  simp only [decodeWord, h]

theorem decodeWord_family9 (h : fieldOp w = 0x9#4) :
    decodeWord w = if fieldN w = 0#4 then some (.sneReg (fieldX w) (fieldY w)) else none := by
  simp only [decodeWord, h]

theorem decodeWord_familyE (h : fieldOp w = 0xE#4) : decodeWord w = decodeFamilyE (fieldX w) (fieldNN w) := by
  simp only [decodeWord, h]

theorem decodeWord_familyF (h : fieldOp w = 0xF#4) : decodeWord w = decodeFamilyF (fieldX w) (fieldNN w) := by
  simp only [decodeWord, h]

end

/-! ### What a row says of the decoder and of the encoder -/

/-- The word is the row's, by R73's test. -/
def OpcodeRow.Matches (row : OpcodeRow) (w : Word) : Prop := w &&& row.mask = row.value

/-- Every word of the row decodes to the instruction the row builds, which is well formed and encodes to the word. -/
def OpcodeRow.Correct (row : OpcodeRow) : Prop :=
  ∀ w, row.Matches w → decodeWord w = some (row.build w) ∧ (row.build w).WellFormed ∧ encode (row.build w) = w

namespace OpcodeRow.Correct

/-! One lemma per instruction format of R71: the row's words decode by their fields, and the encoder packs those. -/

section
variable {name : String}

theorem fixed {v : Word} {i : Instr} (h : decodeWord v = some i ∧ i.WellFormed ∧ encode i = v) :
    Correct ⟨name, 0xFFFF, v, fun _ => i⟩ := by
  intro w hm
  obtain rfl : w = v := (word_and_FFFF w).symm.trans hm
  exact h

theorem formatNNN (op : BitVec 4) {mk : Addr12 → Instr}
    (hdec : ∀ w, fieldOp w = op → decodeWord w = some (mk (fieldNNN w)))
    (henc : ∀ nnn, (mk nnn).WellFormed ∧ encode (mk nnn) = packNNN op.toNat nnn.toNat) :
    Correct ⟨name, 0xF000, op ++ 0x000#12, fun w => mk (fieldNNN w)⟩ := by
  intro w hm
  obtain rfl : fieldOp w = op := and_F000_eq_iff.1 hm
  obtain ⟨hwf, hpack⟩ := henc (fieldNNN w)
  exact ⟨hdec w rfl, hwf, hpack.trans (packNNN_fields w)⟩

theorem formatXNN (op : BitVec 4) {mk : Reg → Byte → Instr}
    (hdec : ∀ w, fieldOp w = op → decodeWord w = some (mk (fieldX w) (fieldNN w)))
    (henc : ∀ x nn, (mk x nn).WellFormed ∧ encode (mk x nn) = packXNN op.toNat x nn.toNat) :
    Correct ⟨name, 0xF000, op ++ 0x000#12, fun w => mk (fieldX w) (fieldNN w)⟩ := by
  intro w hm
  obtain rfl : fieldOp w = op := and_F000_eq_iff.1 hm
  obtain ⟨hwf, hpack⟩ := henc (fieldX w) (fieldNN w)
  exact ⟨hdec w rfl, hwf, hpack.trans (packXNN_fields w)⟩

theorem formatX (op : BitVec 4) (nn : Byte) {mk : Reg → Instr}
    (hdec : ∀ w, fieldOp w = op → fieldNN w = nn → decodeWord w = some (mk (fieldX w)))
    (henc : ∀ x, (mk x).WellFormed ∧ encode (mk x) = packXNN op.toNat x nn.toNat) :
    Correct ⟨name, 0xF0FF, op ++ 0x0#4 ++ nn, fun w => mk (fieldX w)⟩ := by
  intro w hm
  obtain ⟨rfl, rfl⟩ : fieldOp w = op ∧ fieldNN w = nn := and_F0FF_eq_iff.1 hm
  obtain ⟨hwf, hpack⟩ := henc (fieldX w)
  exact ⟨hdec w rfl rfl, hwf, hpack.trans (packXNN_fields w)⟩

theorem formatXY (op n : BitVec 4) {mk : Reg → Reg → Instr}
    (hdec : ∀ w, fieldOp w = op → fieldN w = n → decodeWord w = some (mk (fieldX w) (fieldY w)))
    (henc : ∀ x y, (mk x y).WellFormed ∧ encode (mk x y) = packXYN op.toNat x y n.toNat) :
    Correct ⟨name, 0xF00F, op ++ 0x00#8 ++ n, fun w => mk (fieldX w) (fieldY w)⟩ := by
  intro w hm
  obtain ⟨rfl, rfl⟩ : fieldOp w = op ∧ fieldN w = n := and_F00F_eq_iff.1 hm
  obtain ⟨hwf, hpack⟩ := henc (fieldX w) (fieldY w)
  exact ⟨hdec w rfl rfl, hwf, hpack.trans (packXYN_fields w)⟩

theorem formatXYN (op : BitVec 4) {mk : Reg → Reg → Nat → Instr}
    (hdec : ∀ w, fieldOp w = op → decodeWord w = some (mk (fieldX w) (fieldY w) (fieldN w).toNat))
    (henc : ∀ x y n, n < 16 → (mk x y n).WellFormed ∧ encode (mk x y n) = packXYN op.toNat x y n) :
    Correct ⟨name, 0xF000, op ++ 0x000#12, fun w => mk (fieldX w) (fieldY w) (fieldN w).toNat⟩ := by
  intro w hm
  obtain rfl : fieldOp w = op := and_F000_eq_iff.1 hm
  obtain ⟨hwf, hpack⟩ := henc (fieldX w) (fieldY w) (fieldN w).toNat (fieldN w).isLt
  exact ⟨hdec w rfl, hwf, hpack.trans (packXYN_fields w)⟩

/-! The families dispatched on their low bits: the secondary code decides. -/

theorem family8 (n : BitVec 4) {mk : Reg → Reg → Instr}
    (h : ∀ x y, decodeFamily8 x y n = some (mk x y) ∧ (mk x y).WellFormed ∧
      encode (mk x y) = packXYN 0x8 x y n.toNat) :
    Correct ⟨name, 0xF00F, 0x8#4 ++ 0x00#8 ++ n, fun w => mk (fieldX w) (fieldY w)⟩ :=
  formatXY 0x8#4 n (fun w hop hn => by rw [decodeWord_family8 hop, hn, (h _ _).1]) fun x y => (h x y).2

theorem familyE (nn : Byte) {mk : Reg → Instr}
    (h : ∀ x, decodeFamilyE x nn = some (mk x) ∧ (mk x).WellFormed ∧ encode (mk x) = packXNN 0xE x nn.toNat) :
    Correct ⟨name, 0xF0FF, 0xE#4 ++ 0x0#4 ++ nn, fun w => mk (fieldX w)⟩ :=
  formatX 0xE#4 nn (fun w hop hnn => by rw [decodeWord_familyE hop, hnn, (h _).1]) fun x => (h x).2

theorem familyF (nn : Byte) {mk : Reg → Instr}
    (h : ∀ x, decodeFamilyF x nn = some (mk x) ∧ (mk x).WellFormed ∧ encode (mk x) = packXNN 0xF x nn.toNat) :
    Correct ⟨name, 0xF0FF, 0xF#4 ++ 0x0#4 ++ nn, fun w => mk (fieldX w)⟩ :=
  formatX 0xF#4 nn (fun w hop hnn => by rw [decodeWord_familyF hop, hnn, (h _).1]) fun x => (h x).2

end

end OpcodeRow.Correct

section
open OpcodeRow.Correct

theorem opcodeRowsLow_correct : ∀ row ∈ opcodeRowsLow, row.Correct := by
  simp only [opcodeRowsLow, List.forall_mem_cons, List.not_mem_nil, false_imp_iff, implies_true, and_true]
  exact ⟨fixed (by decide), fixed (by decide),
    formatNNN 0x1#4 (fun w h => by simp only [decodeWord, h]) fun _ => ⟨rfl, rfl⟩,
    formatNNN 0x2#4 (fun w h => by simp only [decodeWord, h]) fun _ => ⟨rfl, rfl⟩,
    formatXNN 0x3#4 (fun w h => by simp only [decodeWord, h]) fun _ _ => ⟨rfl, rfl⟩,
    formatXNN 0x4#4 (fun w h => by simp only [decodeWord, h]) fun _ _ => ⟨rfl, rfl⟩,
    formatXY 0x5#4 0x0#4 (fun w h hn => (decodeWord_family5 h).trans (if_pos hn)) fun _ _ => ⟨rfl, rfl⟩,
    formatXNN 0x6#4 (fun w h => by simp only [decodeWord, h]) fun _ _ => ⟨rfl, rfl⟩,
    formatXNN 0x7#4 (fun w h => by simp only [decodeWord, h]) fun _ _ => ⟨rfl, rfl⟩⟩

theorem opcodeRows8_correct : ∀ row ∈ opcodeRows8, row.Correct := by
  simp only [opcodeRows8, List.forall_mem_cons, List.not_mem_nil, false_imp_iff, implies_true, and_true]
  exact ⟨family8 0x0#4 fun _ _ => ⟨rfl, rfl, rfl⟩, family8 0x1#4 fun _ _ => ⟨rfl, rfl, rfl⟩,
    family8 0x2#4 fun _ _ => ⟨rfl, rfl, rfl⟩, family8 0x3#4 fun _ _ => ⟨rfl, rfl, rfl⟩,
    family8 0x4#4 fun _ _ => ⟨rfl, rfl, rfl⟩, family8 0x5#4 fun _ _ => ⟨rfl, rfl, rfl⟩,
    family8 0x6#4 fun _ _ => ⟨rfl, rfl, rfl⟩, family8 0x7#4 fun _ _ => ⟨rfl, rfl, rfl⟩,
    family8 0xE#4 fun _ _ => ⟨rfl, rfl, rfl⟩⟩

theorem opcodeRowsHigh_correct : ∀ row ∈ opcodeRowsHigh, row.Correct := by
  simp only [opcodeRowsHigh, List.forall_mem_cons, List.not_mem_nil, false_imp_iff, implies_true, and_true]
  exact ⟨formatXY 0x9#4 0x0#4 (fun w h hn => (decodeWord_family9 h).trans (if_pos hn)) fun _ _ => ⟨rfl, rfl⟩,
    formatNNN 0xA#4 (fun w h => by simp only [decodeWord, h]) fun _ => ⟨rfl, rfl⟩,
    formatNNN 0xB#4 (fun w h => by simp only [decodeWord, h]) fun _ => ⟨rfl, rfl⟩,
    formatXNN 0xC#4 (fun w h => by simp only [decodeWord, h]) fun _ _ => ⟨rfl, rfl⟩,
    formatXYN 0xD#4 (fun w h => by simp only [decodeWord, h]) fun _ _ _ hn => ⟨decide_eq_true hn, rfl⟩,
    familyE 0x9E#8 fun _ => ⟨rfl, rfl, rfl⟩, familyE 0xA1#8 fun _ => ⟨rfl, rfl, rfl⟩⟩

theorem opcodeRowsF_correct : ∀ row ∈ opcodeRowsF, row.Correct := by
  simp only [opcodeRowsF, List.forall_mem_cons, List.not_mem_nil, false_imp_iff, implies_true, and_true]
  exact ⟨familyF 0x07#8 fun _ => ⟨rfl, rfl, rfl⟩, familyF 0x0A#8 fun _ => ⟨rfl, rfl, rfl⟩,
    familyF 0x15#8 fun _ => ⟨rfl, rfl, rfl⟩, familyF 0x18#8 fun _ => ⟨rfl, rfl, rfl⟩,
    familyF 0x1E#8 fun _ => ⟨rfl, rfl, rfl⟩, familyF 0x29#8 fun _ => ⟨rfl, rfl, rfl⟩,
    familyF 0x33#8 fun _ => ⟨rfl, rfl, rfl⟩, familyF 0x55#8 fun _ => ⟨rfl, rfl, rfl⟩,
    familyF 0x65#8 fun _ => ⟨rfl, rfl, rfl⟩⟩

end

theorem opcodeMap_correct {row : OpcodeRow} (h : row ∈ opcodeMap) : row.Correct := by
  simp only [opcodeMap, List.mem_append] at h
  rcases h with ((h | h) | h) | h
  · exact opcodeRowsLow_correct row h
  · exact opcodeRows8_correct row h
  · exact opcodeRowsHigh_correct row h
  · exact opcodeRowsF_correct row h

/-! ### The words that do not decode (R76, R77) -/

theorem ite_some_eq_none_iff {α : Type} {p : Prop} [Decidable p] {a : α} {o : Option α} :
    (if p then some a else o) = none ↔ ¬p ∧ o = none := by
  by_cases h : p <;> simp [h]

theorem decodeFamily0_eq_none_iff (w : Word) : decodeFamily0 w = none ↔ w ∉ [0x00E0#16, 0x00EE#16] := by
  simp [decodeFamily0, ite_some_eq_none_iff]

theorem decodeFamily8_eq_none_iff (x y : Reg) (n : BitVec 4) :
    decodeFamily8 x y n = none ↔ n ∈ [0x8#4, 0x9#4, 0xA#4, 0xB#4, 0xC#4, 0xD#4, 0xF#4] := by
  unfold decodeFamily8
  split
  case h_10 => simp only [true_iff]; revert n; decide
  all_goals simp

theorem decodeFamilyE_eq_none_iff (x : Reg) (nn : Byte) :
    decodeFamilyE x nn = none ↔ nn ∉ [0x9E#8, 0xA1#8] := by
  simp [decodeFamilyE, ite_some_eq_none_iff]

theorem decodeFamilyF_eq_none_iff (x : Reg) (nn : Byte) : decodeFamilyF x nn = none ↔
    nn ∉ [0x07#8, 0x0A#8, 0x15#8, 0x18#8, 0x1E#8, 0x29#8, 0x33#8, 0x55#8, 0x65#8] := by
  simp [decodeFamilyF, ite_some_eq_none_iff]

theorem decodeWord_ne_none_of_full {w : Word} (h : fieldOp w ∈ fullFamilies) : decodeWord w ≠ none := by
  simp only [fullFamilies, List.mem_cons, List.not_mem_nil, or_false] at h
  rcases h with h | h | h | h | h | h | h | h | h | h <;> simp [decodeWord, h]

/-! ### A word that decodes lies in a row (R73) -/

theorem exists_fullRow {op : BitVec 4} (h : op ∈ fullFamilies) :
    ∃ row ∈ opcodeMap, row.mask = 0xF000#16 ∧ row.value = op ++ 0x000#12 := by
  fin_cases h <;> decide

theorem exists_row0 {w : Word} (h : w ∈ [0x00E0#16, 0x00EE#16]) :
    ∃ row ∈ opcodeMap, row.mask = 0xFFFF#16 ∧ row.value = w := by
  fin_cases h <;> decide

theorem exists_row59 {op : BitVec 4} (h : op ∈ [0x5#4, 0x9#4]) :
    ∃ row ∈ opcodeMap, row.mask = 0xF00F#16 ∧ row.value = op ++ 0x00#8 ++ 0x0#4 := by
  fin_cases h <;> decide

theorem exists_row8 {n : BitVec 4} (h : n ∉ [0x8#4, 0x9#4, 0xA#4, 0xB#4, 0xC#4, 0xD#4, 0xF#4]) :
    ∃ row ∈ opcodeMap, row.mask = 0xF00F#16 ∧ row.value = 0x8#4 ++ 0x00#8 ++ n := by
  revert n; decide

theorem exists_rowE {nn : Byte} (h : nn ∈ [0x9E#8, 0xA1#8]) :
    ∃ row ∈ opcodeMap, row.mask = 0xF0FF#16 ∧ row.value = 0xE#4 ++ 0x0#4 ++ nn := by
  fin_cases h <;> decide

theorem exists_rowF {nn : Byte} (h : nn ∈ [0x07#8, 0x0A#8, 0x15#8, 0x18#8, 0x1E#8, 0x29#8, 0x33#8, 0x55#8, 0x65#8]) :
    ∃ row ∈ opcodeMap, row.mask = 0xF0FF#16 ∧ row.value = 0xF#4 ++ 0x0#4 ++ nn := by
  fin_cases h <;> decide

theorem OpcodeRow.exists_matches {w m v : Word} (hrow : ∃ row ∈ opcodeMap, row.mask = m ∧ row.value = v)
    (h : w &&& m = v) : ∃ row ∈ opcodeMap, row.Matches w := by
  obtain ⟨row, hmem, rfl, rfl⟩ := hrow
  exact ⟨row, hmem, h⟩

/-- By families: what the family's dispatch does not refuse is the secondary code of a row (R73). -/
theorem exists_row_of_decodeWord {w : Word} (h : decodeWord w ≠ none) : ∃ row ∈ opcodeMap, row.Matches w := by
  rcases family_cases (fieldOp w) with hop | hop | hop | hop | hop | hop | hop
  · exact OpcodeRow.exists_matches (exists_fullRow hop) (and_F000_eq_iff.2 rfl)
  · rw [decodeWord_family0 hop, Ne, decodeFamily0_eq_none_iff, not_not] at h
    exact OpcodeRow.exists_matches (exists_row0 h) (word_and_FFFF w)
  · have hn : fieldN w = 0x0#4 := by simpa [decodeWord_family5 hop] using h
    exact OpcodeRow.exists_matches (exists_row59 (by decide)) (and_F00F_eq_iff.2 ⟨hop, hn⟩)
  · rw [decodeWord_family8 hop, Ne, decodeFamily8_eq_none_iff] at h
    exact OpcodeRow.exists_matches (exists_row8 h) (and_F00F_eq_iff.2 ⟨hop, rfl⟩)
  · have hn : fieldN w = 0x0#4 := by simpa [decodeWord_family9 hop] using h
    exact OpcodeRow.exists_matches (exists_row59 (by decide)) (and_F00F_eq_iff.2 ⟨hop, hn⟩)
  · rw [decodeWord_familyE hop, Ne, decodeFamilyE_eq_none_iff, not_not] at h
    exact OpcodeRow.exists_matches (exists_rowE h) (and_F0FF_eq_iff.2 ⟨hop, rfl⟩)
  · rw [decodeWord_familyF hop, Ne, decodeFamilyF_eq_none_iff, not_not] at h
    exact OpcodeRow.exists_matches (exists_rowF h) (and_F0FF_eq_iff.2 ⟨hop, rfl⟩)

/-- The decoder is the relation of the rows: it answers what a row builds from a word of its own, and nothing else. -/
theorem decodeWord_eq_some_iff {w : Word} {i : Instr} :
    decodeWord w = some i ↔ ∃ row ∈ opcodeMap, row.Matches w ∧ row.build w = i := by
  constructor
  · intro h
    obtain ⟨row, hmem, hm⟩ := exists_row_of_decodeWord (w := w) (by simp [h])
    obtain ⟨hdec, -, -⟩ := opcodeMap_correct hmem w hm
    exact ⟨row, hmem, hm, Option.some.inj (hdec.symm.trans h)⟩
  · rintro ⟨row, hmem, hm, rfl⟩
    exact (opcodeMap_correct hmem w hm).1

/-! ### No two rows overlap (R73) -/

/-- A word of both rows would have, under both masks, the value of each. -/
theorem no_word_matches_both {r q : OpcodeRow} (h : r.value &&& q.mask ≠ q.value &&& r.mask) (w : Word) :
    ¬(w &&& r.mask = r.value ∧ w &&& q.mask = q.value) := by
  rintro ⟨hr, hq⟩
  exact h (by rw [← hr, ← hq, BitVec.and_assoc, BitVec.and_comm r.mask, BitVec.and_assoc])

theorem opcodeMap_values_differ : opcodeMap.Pairwise fun r q => r.value &&& q.mask ≠ q.value &&& r.mask := by
  decide

end Sys2Proof
end

section
/-! SUPPORT. The statements of 30_encoding.md, from the decoder as the relation of the opcode map's rows. -/

namespace Sys2Proof

namespace Laws.TableRow

/-- Every instruction has its row. -/
theorem statement_all : ∀ i : Instr, Statement i
  | .cls => cls | .ret => ret | .jp nnn => jp nnn | .call nnn => call nnn | .seImm x nn => seImm x nn
  | .sneImm x nn => sneImm x nn | .seReg x y => seReg x y | .ldImm x nn => ldImm x nn
  | .addImm x nn => addImm x nn | .ldReg x y => ldReg x y | .orReg x y => orReg x y | .andReg x y => andReg x y
  | .xorReg x y => xorReg x y | .addReg x y => addReg x y | .subReg x y => subReg x y | .shr x y => shr x y
  | .subn x y => subn x y | .shl x y => shl x y | .sneReg x y => sneReg x y | .ldI nnn => ldI nnn
  | .jpV0 nnn => jpV0 nnn | .rnd x nn => rnd x nn | .drw x y n => drw x y n | .skp x => skp x
  | .sknp x => sknp x | .ldVxDT x => ldVxDT x | .ldVxK x => ldVxK x | .ldDTVx x => ldDTVx x
  | .ldSTVx x => ldSTVx x | .addI x => addI x | .ldF x => ldF x | .ldB x => ldB x | .storeRegs x => storeRegs x
  | .loadRegs x => loadRegs x

end Laws.TableRow

/-- Settles O2: the encoding lies in the instruction's row, and the decoder answers what that row builds. -/
theorem decodeOfEncodeIsTheInstruction : Obligations.DecodeOfEncodeIsTheInstruction := by
  intro i hi
  have hdec : decodeWord (encode i) = some i := decodeWord_eq_some_iff.2 (Laws.TableRow.statement_all i hi)
  exact ⟨hdec, fun rest => by rw [encodeBytes, decode_wordBytes, hdec]⟩

/-- Settles O3: the row the word was read from packs its fields again. -/
theorem encodeOfDecodeIsTheWord : Obligations.EncodeOfDecodeIsTheWord := by
  intro w i h
  obtain ⟨row, hmem, hm, rfl⟩ := decodeWord_eq_some_iff.1 h
  exact (opcodeMap_correct hmem w hm).2

/-- Settles O4: a first row that matches is a row, and where none matches nothing decodes. -/
theorem decoderAgreesWithTheOpcodeMap : Obligations.DecoderAgreesWithTheOpcodeMap := by
  intro w
  unfold decodeByMap
  cases h : opcodeMap.find? fun row => w &&& row.mask == row.value with
  | none =>
    by_contra hd
    obtain ⟨row, hmem, hm⟩ := exists_row_of_decodeWord hd
    exact List.find?_eq_none.1 h row hmem (beq_iff_eq.2 hm)
  | some row =>
    have hm := List.find?_some h
    exact (opcodeMap_correct (List.mem_of_find?_eq_some h) w (beq_iff_eq.1 hm)).1

/-- Settles O5: any two rows differ in a bit that both masks cover. -/
theorem opcodeRowsDoNotOverlap : Obligations.OpcodeRowsDoNotOverlap :=
  opcodeMap_values_differ.imp no_word_matches_both

/-- Settles O6, by families: each family's dispatch names the secondary codes it refuses. -/
theorem illegalWordsAreThoseOfTheTable : Obligations.IllegalWordsAreThoseOfTheTable := by
  intro w
  rcases family_cases (fieldOp w) with hop | hop | hop | hop | hop | hop | hop
  · simp [decodeWord_ne_none_of_full hop, ne_of_mem_fullFamilies hop]
  · simp [decodeWord_family0 hop, decodeFamily0_eq_none_iff, hop]
  · simp [decodeWord_family5 hop, hop]
  · simp [decodeWord_family8 hop, decodeFamily8_eq_none_iff, hop]
  · simp [decodeWord_family9 hop, hop]
  · simp [decodeWord_familyE hop, decodeFamilyE_eq_none_iff, hop]
  · simp [decodeWord_familyF hop, decodeFamilyF_eq_none_iff, hop]

/-- Settles O1: the decoder evaluates on each of these words. -/
theorem decodesWordsOfTheOpcodeMap : Obligations.DecodesWordsOfTheOpcodeMap := by
  unfold Obligations.DecodesWordsOfTheOpcodeMap
  decide

end Sys2Proof

namespace Sys2Proof.Machine

/-! ### The tick on an illegal word (60_exceptions.md R174) -/

theorem fetchDecodeExecute_of_illegal {s : State} {w : Word} (hw : s.fetch = some w) (hd : decodeWord w = none) :
    fetchDecodeExecute s = .next (s.faultedWith 2 w w) := by
  simp only [fetchDecodeExecute, hw, hd, raise_eq_faultedWith, saturate16_word, codeOf]

/-- Settles O10: as `fetchBeyondMemoryFaults`, after a fetch that succeeds. -/
theorem illegalWordFaultsWithItself : Obligations.IllegalWordFaultsWithItself := by
  intro s w hl hf hpc hw hd
  obtain ⟨hnil, htick⟩ := step_running hl hf
  have hfetch : s.fetch = some w := fetch_of_bytes hpc hw
  exact ⟨fun hc => (hnil hc).trans (fetchDecodeExecute_of_illegal hfetch hd),
    fun rest hc => (htick rest hc).trans
      (fetchDecodeExecute_of_illegal ((fetch_congr rfl rfl rfl).trans hfetch) hd)⟩

end Sys2Proof.Machine
end

section
/-! SUPPORT. Control transfer (40_control_flow.md): the skip as one write of `PC`, the fault whose information is `PC`,
and each outcome of `CALL` and `RET`. -/

namespace Sys2Proof.Machine

/-! ### Skips (R100) -/

/-- A skip writes `PC` alone, whichever way its condition goes. -/
theorem skipIf_eq (c : Bool) (s : State) : s.skipIf c = { s with pc := if c then s.pc + 4 else s.pc + 2 } := by
  cases c <;> rfl

theorem skipIf_beq (a b : Byte) (s : State) :
    s.skipIf (a == b) = { s with pc := if a = b then s.pc + 4 else s.pc + 2 } := by
  simp only [skipIf_eq, beq_iff_eq]

theorem skipIf_bne (a b : Byte) (s : State) :
    s.skipIf (a != b) = { s with pc := if a ≠ b then s.pc + 4 else s.pc + 2 } := by
  simp only [skipIf_eq, bne_iff_ne]

/-! ### `CALL` and `RET` (R101, R103) -/

/-- The faults of the stack controller give `PC` as their information, which needs no saturation (R174). -/
theorem raiseAt_pc_eq_faultedWith (c : FaultCause) (i : Instr) (s : State) :
    raiseAt c i s.pc.toNat s = s.faultedWith (codeOf c) (encode i) s.pc := by
  rw [raiseAt, raise_eq_faultedWith, saturate16_word]

theorem execCall_of_lt (nnn : Addr12) (s : State) (h : s.sp.val < 16) :
    execCall nnn s = .next { s with stack := s.stack.set s.sp.val s.pc h,
                                    sp := ⟨s.sp.val + 1, Nat.succ_lt_succ h⟩, pc := addressOf nnn } := by
  simp only [execCall, push_of_lt s s.pc h, State.setPc]

theorem execCall_full (nnn : Addr12) (s : State) (h : ¬ s.sp.val < 16) :
    execCall nnn s = .next (s.faultedWith 3 (encode (.call nnn)) s.pc) := by
  simp only [execCall, push_full s s.pc h, raiseAt_pc_eq_faultedWith, codeOf]

/-- A pop from the depth `j + 1` answers the slot `j`. -/
theorem pop_of_succ (s : State) {j : Fin 16} {sp' : Fin 17} (hsp : s.sp.val = j.val + 1) (hsp' : sp'.val = j.val) :
    s.pop = some (s.stack[j], { s with sp := sp' }) := by
  have hj : s.sp.val - 1 = j.val := by omega
  obtain rfl : sp' = ⟨j.val, Nat.lt_succ_of_lt j.isLt⟩ := Fin.ext hsp'
  simp only [pop_of_pos s (by omega), hj, Fin.getElem_fin]

theorem execRet_of_succ (s : State) {j : Fin 16} {sp' : Fin 17} (hsp : s.sp.val = j.val + 1) (hsp' : sp'.val = j.val) :
    execRet s = .next { s with sp := sp', pc := s.stack[j] + 2 } := by
  simp only [execRet, pop_of_succ s hsp hsp', State.setPc]

theorem execRet_empty (s : State) (h : s.sp.val = 0) : execRet s = .next (s.faultedWith 4 (encode .ret) s.pc) := by
  simp only [execRet, pop_empty s h, raiseAt_pc_eq_faultedWith, codeOf]

/-! ### The statements of 40_control_flow.md -/

/-- Settles O18: the address is extended with zeros. -/
theorem jumpGoesToItsAddress : Obligations.JumpGoesToItsAddress := by
  intro nnn s
  rw [← addressOf_eq]
  rfl

/-- Settles O19, by the two outcomes of the push. -/
theorem callPushesItsOwnAddress : Obligations.CallPushesItsOwnAddress := by
  intro nnn s
  refine ⟨fun h => ?_, fun h => execCall_full nnn s (by omega)⟩
  rw [← addressOf_eq]
  exact execCall_of_lt nnn s h

/-- Settles O20, by the two outcomes of the pop. -/
theorem returnGoesPastTheCallSite : Obligations.ReturnGoesPastTheCallSite :=
  fun s => ⟨fun _ _ hsp hsp' => execRet_of_succ s hsp hsp', execRet_empty s⟩

/-- Settles O21: the slot `RET` pops is the one `CALL` wrote. -/
theorem callThenReturnComesBack : Obligations.CallThenReturnComesBack := by
  intro nnn s h
  refine ⟨_, execCall_of_lt nnn s h, fun u hstack hsp => ?_⟩
  have hdepth : u.sp.val = s.sp.val + 1 := congrArg Fin.val hsp
  have hslot : u.stack[s.sp.val] = s.pc := by simp only [hstack, Vector.getElem_set_self]
  exact ⟨_, execRet_of_succ u (j := ⟨s.sp.val, h⟩) hdepth rfl, congrArg (· + 2) hslot, rfl⟩

/-- Settles O22: the two skips on the comparison of a register with an immediate. -/
theorem immediateSkips : Obligations.ImmediateSkips := by
  intro x nn s
  constructor
  · exact congrArg Host.Outcome.next (skipIf_beq s.v[x] nn s)
  · exact congrArg Host.Outcome.next (skipIf_bne s.v[x] nn s)

/-- Settles O23: the same two skips on the comparison of two registers. -/
theorem registerSkips : Obligations.RegisterSkips := by
  intro x y s
  constructor
  · exact congrArg Host.Outcome.next (skipIf_beq s.v[x] s.v[y] s)
  · exact congrArg Host.Outcome.next (skipIf_bne s.v[x] s.v[y] s)

/-- Settles O24: the sum of a 12-bit and an 8-bit number fits 16 bits. -/
theorem offsetJumpAddsV0 : Obligations.OffsetJumpAddsV0 :=
  fun nnn s => ⟨_, rfl, rfl, offsetTarget_toNat nnn s⟩

end Sys2Proof.Machine
end

section
/-! SUPPORT. Register load, arithmetic, logic, shifts and random bytes (41_alu.md): the two shapes of a next state, the
shift operand, and each result and flag in the operators of bit vectors. -/

namespace Sys2Proof.Machine

/-! ### The two shapes of a next state -/

/-- An instruction that writes `V[x]` alone. -/
theorem next_setV (s : State) (x : Reg) {r r' : Byte} (hr : r = r') :
    (.next (s.setV x r).advance : Host.Outcome State Fault Refusal) =
      .next { s with v := s.v.set x r', pc := s.pc + 2 } :=
  hr ▸ rfl

/-- An instruction that writes `V[x]` and then `VF`, so that the flag stays where x = 15 (R122, D11). -/
theorem next_setResultAndFlag (s : State) (x : Reg) {r r' f : Byte} {c : Bool} (hr : r = r') (hf : flagByte c = f) :
    (.next (s.setResultAndFlag x r c).advance : Host.Outcome State Fault Refusal) =
      .next { s with v := (s.v.set x r').set VF f, pc := s.pc + 2 } :=
  hr ▸ hf ▸ rfl

/-- The operand of a shift by the `COMPAT` mode (R129, R131). -/
theorem shiftOperand_eq (x y : Reg) (s : State) :
    shiftOperand x y s = if s.params.compat = .legacy then s.v[y] else s.v[x] := by
  unfold shiftOperand
  cases s.params.compat <;> rfl

/-! ### The statements of 41_alu.md -/

/-- Settles O25: the sum reduced mod 256 is the 8-bit sum, and `VF` is a register like the others. -/
theorem loadAndAddImmediate : Obligations.LoadAndAddImmediate := by
  intro x nn s
  constructor
  · exact next_setV s x rfl
  · exact next_setV s x (sumByte_eq s.v[x] nn)

/-- Settles O26: each of the four writes its result to `V[x]` alone. -/
theorem moveAndLogic : Obligations.MoveAndLogic :=
  fun x _ s => ⟨next_setV s x rfl, next_setV s x rfl, next_setV s x rfl, next_setV s x rfl⟩

/-- Settles O27, by the 8-bit sum and its carry. -/
theorem addReportsCarry : Obligations.AddReportsCarry := fun x y s =>
  next_setResultAndFlag s x (sumByte_eq s.v[x] s.v[y]) (flagByte_carryFlag s.v[x] s.v[y])

/-- Settles O28, by the 8-bit difference and its NOT borrow; `SUBN` exchanges the operands. -/
theorem subtractReportsNotBorrow : Obligations.SubtractReportsNotBorrow := by
  intro x y s
  constructor
  · exact next_setResultAndFlag s x (differenceByte_eq s.v[x] s.v[y]) (flagByte_notBorrowFlag s.v[x] s.v[y])
  · exact next_setResultAndFlag s x (differenceByte_eq s.v[y] s.v[x]) (flagByte_notBorrowFlag s.v[y] s.v[x])

/-- Settles O29: halving and doubling are the shifts by one, and the flag is the bit shifted out. -/
theorem shiftsReportTheBitShiftedOut : Obligations.ShiftsReportTheBitShiftedOut := by
  intro x y s src hsrc
  obtain rfl : src = shiftOperand x y s := hsrc.trans (shiftOperand_eq x y s).symm
  constructor
  · exact next_setResultAndFlag s x (halfByte_eq _) (flagByte_eq _)
  · exact next_setResultAndFlag s x (doubleByte_eq _) (flagByte_eq _)

/-- Settles O30: the byte is the free draw of the state's counter (log 3), and the mask clears every bit outside `nn`. -/
theorem randomIsMasked : Obligations.RandomIsMasked := by
  intro x nn s
  refine ⟨Config.randByte s.freeIndex, next_setV { s with freeIndex := s.freeIndex + 1 } x rfl, fun b hb => ?_⟩
  rw [BitVec.getLsbD_and, hb, Bool.and_false]

end Sys2Proof.Machine
end

section
/-! SUPPORT. Index register and memory (42_index_memory.md): the two outcomes of each instruction that reaches memory, by
its range check, and what the stored and the loaded bytes are. -/

namespace Sys2Proof.Machine

/-! ### The index register (R140 to R142, R144) -/

/-- An instruction that writes `I` alone. -/
theorem next_setI (s : State) {a a' : Word} (ha : a = a') :
    (.next (s.setI a).advance : Host.Outcome State Fault Refusal) = .next { s with i := a', pc := s.pc + 2 } :=
  ha ▸ rfl

/-- The sum of `ADD I` reduced mod 65536 is the 16-bit sum (R141). -/
theorem indexSum_eq (a : Word) (b : Byte) :
    BitVec.ofNat 16 ((a.toNat + b.toNat) % 65536) = a + b.setWidth 16 := by
  apply BitVec.eq_of_toNat_eq
  simp

/-- `I` after a bulk transfer by the `COMPAT` mode. -/
theorem indexAfterBulk_eq (x : Reg) (s : State) :
    indexAfterBulk x s = if s.params.compat = .legacy then s.i + BitVec.ofNat 16 (x.val + 1) else s.i := by
  unfold indexAfterBulk
  cases s.params.compat <;> rfl

/-! ### The range check of the whole access (R56) -/

/-- Above the memory the check writes the status record of code 6 and nothing else (R174, D6). -/
theorem rangeChecked_eq_faultedWith {i : Instr} {top : Nat} {s done : State} (h : 4095 < top) :
    rangeChecked i top s done = s.faultedWith 6 (encode i) (saturate16 top) :=
  rangeChecked_above h

theorem execLdB_of_le {x : Reg} {s : State} (h : s.i.toNat + 2 ≤ 4095) :
    execLdB x s = .next (s.storeBytes s.i.toNat (bcdDigits (s.getV x))).advance :=
  congrArg Host.Outcome.next (rangeChecked_ok h)

theorem execLdB_above {x : Reg} {s : State} (h : 4095 < s.i.toNat + 2) :
    execLdB x s = .next (s.faultedWith 6 (encode (.ldB x)) (saturate16 (s.i.toNat + 2))) :=
  congrArg Host.Outcome.next (rangeChecked_eq_faultedWith h)

theorem execStoreRegs_of_le {x : Reg} {s : State} (h : s.i.toNat + x.val ≤ 4095) :
    execStoreRegs x s =
      .next ((s.storeBytes s.i.toNat (bulkBytes x s)).setI (indexAfterBulk x s)).advance :=
  congrArg Host.Outcome.next (rangeChecked_ok h)

theorem execStoreRegs_above {x : Reg} {s : State} (h : 4095 < s.i.toNat + x.val) :
    execStoreRegs x s = .next (s.faultedWith 6 (encode (.storeRegs x)) (saturate16 (s.i.toNat + x.val))) :=
  congrArg Host.Outcome.next (rangeChecked_eq_faultedWith h)

theorem execLoadRegs_of_le {x : Reg} {s : State} (h : s.i.toNat + x.val ≤ 4095) :
    execLoadRegs x s = .next ({ s with v := bulkLoaded x s }.setI (indexAfterBulk x s)).advance :=
  congrArg Host.Outcome.next (rangeChecked_ok h)

theorem execLoadRegs_above {x : Reg} {s : State} (h : 4095 < s.i.toNat + x.val) :
    execLoadRegs x s = .next (s.faultedWith 6 (encode (.loadRegs x)) (saturate16 (s.i.toNat + x.val))) :=
  congrArg Host.Outcome.next (rangeChecked_eq_faultedWith h)

/-! ### What a store puts at each of its addresses -/

theorem readByte_storeBytes_add {s : State} (hm : s.mem.wf s.params.font) (a : Nat) (bs : List Byte) {k : Nat}
    (hk : k < bs.length) : (s.storeBytes a bs).readByte (a + k) = bs[k] := by
  simp [readByte_storeBytes s hm, hk]

/-- The `k`-th byte stored by a bulk store is `V[k]` (R144). -/
theorem readByte_storeBytes_bulkBytes {s : State} (hm : s.mem.wf s.params.font) {x k : Reg} (hk : k ≤ x) :
    (s.storeBytes s.i.toNat (bulkBytes x s)).readByte (s.i.toNat + k.val) = s.v[k] := by
  have hlen : k.val < (bulkBytes x s).length := by
    rw [length_bulkBytes]
    exact Nat.lt_succ_of_le hk
  rw [readByte_storeBytes_add hm _ _ hlen, getElem_bulkBytes, State.getV]

@[simp] theorem length_bcdDigits (b : Byte) : (bcdDigits b).length = 3 := rfl

/-- Each digit of a byte is below 256, so the byte that holds it is the digit (R143). -/
theorem bcdDigits_toNat (b : Byte) :
    (bcdDigits b)[0].toNat = b.toNat / 100 ∧ (bcdDigits b)[1].toNat = b.toNat / 10 % 10 ∧
      (bcdDigits b)[2].toNat = b.toNat % 10 := by
  have := b.isLt
  simp only [bcdDigits, List.getElem_cons_zero, List.getElem_cons_succ, BitVec.toNat_ofNat]
  omega

/-! ### The statements of 42_index_memory.md -/

/-- Settles O31: the extended address, the 16-bit sum and the whole product. -/
theorem indexRegisterWrites : Obligations.IndexRegisterWrites :=
  ⟨fun nnn s => next_setI s (addressOf_eq nnn), fun x s => next_setI s (indexSum_eq s.i s.v[x]),
    fun x s => next_setI s (glyphAddress_eq s.v[x])⟩

/-- Settles O32: within the memory each of the three addresses reads the digit stored there. -/
theorem bcdStoreWritesThreeDigits : Obligations.BcdStoreWritesThreeDigits := by
  intro x s hm
  refine ⟨fun h => ⟨_, execLdB_of_le h, rfl, ?_⟩, execLdB_above⟩
  have hread (k : Nat) (hk : k < 3) :
      (s.storeBytes s.i.toNat (bcdDigits s.v[x])).readByte (s.i.toNat + k) = (bcdDigits s.v[x])[k] :=
    readByte_storeBytes_add hm s.i.toNat (bcdDigits s.v[x]) hk
  obtain ⟨hundreds, tens, units⟩ := bcdDigits_toNat s.v[x]
  exact ⟨hread 0 (by decide) ▸ hundreds, hread 1 (by decide) ▸ tens, hread 2 (by decide) ▸ units,
    sameMemoryExcept_storeBytes s s.i.toNat (bcdDigits s.v[x])⟩

/-- Settles O33: within the memory the address `I + k` reads the `k`-th byte stored, which is `V[k]`. -/
theorem bulkStoreWritesTheRegisters : Obligations.BulkStoreWritesTheRegisters := by
  intro x s hm
  refine ⟨fun h => ⟨_, execStoreRegs_of_le h, ?_, fun k hk => readByte_storeBytes_bulkBytes hm hk, ?_⟩,
    execStoreRegs_above⟩
  · rw [← indexAfterBulk_eq]
    rfl
  · exact length_bulkBytes x s ▸ sameMemoryExcept_storeBytes s s.i.toNat (bulkBytes x s)

/-- Settles O34: the registers after the load, up to `x` and above it. -/
theorem bulkLoadReadsTheRegisters : Obligations.BulkLoadReadsTheRegisters := by
  intro x s
  refine ⟨fun h => ⟨_, execLoadRegs_of_le h, ?_, fun k hk => ?_, fun k hk => ?_⟩, execLoadRegs_above⟩
  · rw [← indexAfterBulk_eq]
    rfl
  · exact (bulkLoaded_getElem x k s).trans (if_pos hk)
  · exact (bulkLoaded_getElem x k s).trans (if_neg (not_le_of_gt hk))

/-- Settles O35: the load reads the bytes that the store left at the same addresses. -/
theorem bulkStoreThenLoadGivesRegistersBack : Obligations.BulkStoreThenLoadGivesRegistersBack := by
  intro x s hm h
  obtain ⟨t, ht, -, hstored, -⟩ := (bulkStoreWritesTheRegisters x s hm).1 h
  refine ⟨t, ht, fun u hmem hparams hi => ?_⟩
  obtain ⟨r, hr, -, hloaded, -⟩ := (bulkLoadReadsTheRegisters x u).1 (hi ▸ h)
  refine ⟨r, hr, fun k hk => ?_⟩
  calc r.v[k] = u.readByte (u.i.toNat + k.val) := hloaded k hk
    _ = t.readByte (s.i.toNat + k.val) := by rw [hi, readByte_congr hmem hparams]
    _ = s.v[k] := hstored k hk

end Sys2Proof.Machine
end

section
/-! SUPPORT. Display (43_display.md): the gate, the three outcomes of `DRW`, and the set S of R153 as the cells that the
drawing of the sprite flips. -/

namespace Sys2Proof.Machine

/-! ### The gate (R152) -/

theorem drawGated_of_closed {s : State} (h : s.params.vsyncGating = true ∧ s.vblank = false) : drawGated s = true := by
  obtain ⟨hg, hv⟩ := h
  simp only [drawGated, hg, hv, Bool.not_false, Bool.and_true]

theorem drawGated_of_open {s : State} (h : s.params.vsyncGating = true → s.vblank = true) : drawGated s = false := by
  cases hg : s.params.vsyncGating with
  | false => simp only [drawGated, hg, Bool.false_and]
  | true => simp only [drawGated, hg, h hg, Bool.not_true, Bool.and_false]

theorem vblankAfterDraw_eq (s : State) : vblankAfterDraw s = if s.params.vsyncGating then false else s.vblank := by
  unfold vblankAfterDraw
  cases s.params.vsyncGating <;> rfl

/-! ### The three outcomes of `DRW` (R151, R152) -/

theorem execDrw_gated (x y : Reg) (n : Nat) {s : State} (h : drawGated s = true) : execDrw x y n s = .next s :=
  if_pos h

theorem execDrw_of_not_gated (x y : Reg) {n : Nat} {s : State} (h : drawGated s = false) (hn : n ≠ 0) :
    execDrw x y n s =
      .next (rangeChecked (.drw x y n) (s.i.toNat + (n - 1)) s (drawCompleted (spriteDrawn x y n s) s)) := by
  simp only [execDrw, h, Bool.false_eq_true, if_false, if_neg hn, effectiveAddress_eq]

theorem execDrw_of_le (x y : Reg) {n : Nat} {s : State} (h : drawGated s = false)
    (hn : n = 0 ∨ s.i.toNat + (n - 1) ≤ 4095) :
    execDrw x y n s = .next (drawCompleted (spriteDrawn x y n s) s) := by
  by_cases h0 : n = 0
  · subst h0
    simp only [execDrw, h, Bool.false_eq_true, if_false, if_true]
  · rw [execDrw_of_not_gated x y h h0, rangeChecked_ok (hn.resolve_left h0)]

theorem execDrw_above (x y : Reg) {n : Nat} {s : State} (h : drawGated s = false) (hn : 0 < n)
    (htop : 4095 < s.i.toNat + (n - 1)) :
    execDrw x y n s = .next (s.faultedWith 6 (encode (.drw x y n)) (saturate16 (s.i.toNat + (n - 1)))) := by
  rw [execDrw_of_not_gated x y h (Nat.ne_of_gt hn), rangeChecked_eq_faultedWith htop]

theorem drawCompleted_getElem_VF (d : Drawing) (s : State) : (drawCompleted d s).v[VF] = flagByte d.collision := by
  simp only [drawCompleted_v, Fin.getElem_fin, Vector.getElem_set_self]

/-- A completed draw writes `FB`, `VF`, `PC` and `VBLANK`, and nothing else. -/
theorem drawCompleted_eq (d : Drawing) (s : State) :
    drawCompleted d s =
      { s with fb := d.fb, v := s.v.set VF (flagByte d.collision), pc := s.pc + 2,
               vblank := if s.params.vsyncGating then false else s.vblank } := by
  rw [← vblankAfterDraw_eq]
  rfl

/-! ### The set S (R153) -/

theorem rowPixel_iff (b : Byte) (x0 cx : Nat) :
    rowPixel b x0 cx = true ↔ ∃ c, c ≤ 7 ∧ cx = x0 + c ∧ b.getLsbD (7 - c) = true := by
  simp only [rowPixel, Bool.and_eq_true, decide_eq_true_eq]
  constructor
  · rintro ⟨hcx, hbit⟩
    exact ⟨cx - x0, by omega, by omega, hbit⟩
  · rintro ⟨c, hc, rfl, hbit⟩
    rw [Nat.add_sub_cancel_left]
    exact ⟨by omega, hbit⟩

/-- The bytes from `I`, drawn at the start column and row, have a 1 exactly at the cells of S, up to the clipping. -/
theorem spriteCovers_iff {s : State} {x y : Reg} {n cx cy : Nat} :
    s.spriteCovers x y n cx cy ↔
      cx < 64 ∧ cy < 32 ∧ spritePixel (s.loadBytes s.i.toNat n) (startColumn x s) (startRow y s) cx cy := by
  simp only [spritePixel, length_loadBytes, getElem_loadBytes, rowPixel_iff]
  constructor
  · rintro ⟨r, c, hr, hc, hcy, hcx, hy, hx, hbit⟩
    exact ⟨Nat.lt_succ_of_le hx, Nat.lt_succ_of_le hy, r, hr, hcy, c, hc, hcx, hbit⟩
  · rintro ⟨hx, hy, r, hr, hcy, c, hc, hcx, hbit⟩
    exact ⟨r, c, hr, hc, hcy, hcx, Nat.le_of_lt_succ hy, Nat.le_of_lt_succ hx, hbit⟩

/-- S depends on memory, the font, `I` and the two coordinate registers alone. -/
theorem spriteCovers_congr {s u : State} {x y : Reg} (hm : u.mem = s.mem) (hp : u.params = s.params) (hi : u.i = s.i)
    (hx : u.v[x] = s.v[x]) (hy : u.v[y] = s.v[y]) (n cx cy : Nat) :
    u.spriteCovers x y n cx cy ↔ s.spriteCovers x y n cx cy := by
  simp only [State.spriteCovers, State.getV, readByte_congr hm hp, hi, hx, hy]

theorem spriteDrawn_cell_covered {s : State} {x y : Reg} {n cx cy : Nat} (h : s.spriteCovers x y n cx cy) :
    cellAt (spriteDrawn x y n s).fb cx cy = !cellAt s.fb cx cy := by
  obtain ⟨hx, hy, hp⟩ := spriteCovers_iff.1 h
  exact drawRows_cell_covered _ hx hy hp

theorem spriteDrawn_cell_uncovered {s : State} {x y : Reg} {n cx cy : Nat} (hx : cx < 64) (hy : cy < 32)
    (h : ¬ s.spriteCovers x y n cx cy) : cellAt (spriteDrawn x y n s).fb cx cy = cellAt s.fb cx cy :=
  drawRows_cell_uncovered _ hx hy fun hp => h (spriteCovers_iff.2 ⟨hx, hy, hp⟩)

theorem spriteDrawn_collision_iff {s : State} {x y : Reg} {n : Nat} :
    (spriteDrawn x y n s).collision = true ↔ ∃ cx cy, s.spriteCovers x y n cx cy ∧ cellAt s.fb cx cy = true := by
  simp only [spriteDrawn, drawRows_collision, Bool.false_eq_true, false_or, spriteCovers_iff, and_assoc,
    effectiveAddress_eq, Nat.add_zero]

/-! ### The statements of 43_display.md -/

/-- Settles O37: the draw completes, and S is the set of cells that the drawing flips. -/
theorem drawFlipsTheSpriteAndReportsCollision : Obligations.DrawFlipsTheSpriteAndReportsCollision := by
  intro x y n s hopen hn
  refine ⟨_, execDrw_of_le x y (drawGated_of_open hopen) hn, ?_, fun cx cy hx hy => ?_, ?_, ?_⟩
  · rw [drawCompleted_getElem_VF]
    exact drawCompleted_eq ..
  · exact ⟨spriteDrawn_cell_covered, spriteDrawn_cell_uncovered hx hy⟩
  · intro h
    rw [drawCompleted_getElem_VF, spriteDrawn_collision_iff.2 h, flagByte_eq, if_pos rfl]
  · intro h
    rw [drawCompleted_getElem_VF, flagByte_eq, if_neg (mt spriteDrawn_collision_iff.1 h)]

/-- Settles O39: S is the same for both draws, so each of its cells is flipped twice, and it is set before the second draw
where it was clear before the first. -/
theorem drawingTwiceRestoresTheScreen : Obligations.DrawingTwiceRestoresTheScreen := by
  intro x y n s hopen hn
  obtain ⟨t, ht, -, hcells, -, -⟩ := drawFlipsTheSpriteAndReportsCollision x y n s hopen hn
  refine ⟨t, ht, fun u hfb hm hp hi hvx hvy hopen' => ?_⟩
  obtain ⟨r, hr, -, hcells', hset, hclear⟩ := drawFlipsTheSpriteAndReportsCollision x y n u hopen' (hi ▸ hn)
  simp only [spriteCovers_congr hm hp hi hvx hvy, hfb] at hcells' hset hclear
  have hflipped {cx cy : Nat} (hS : s.spriteCovers x y n cx cy) : cellAt t.fb cx cy = !cellAt s.fb cx cy := by
    obtain ⟨hx, hy, -⟩ := spriteCovers_iff.1 hS
    exact (hcells cx cy hx hy).1 hS
  have hcollides (cx cy : Nat) : (s.spriteCovers x y n cx cy ∧ cellAt t.fb cx cy = true) ↔
      (s.spriteCovers x y n cx cy ∧ cellAt s.fb cx cy = false) :=
    and_congr_right fun hS => by rw [hflipped hS, Bool.not_eq_true']
  simp only [hcollides] at hset hclear
  refine ⟨r, hr, framebuffer_ext fun cx cy hx hy => ?_, hset, hclear⟩
  by_cases hS : s.spriteCovers x y n cx cy
  · rw [(hcells' cx cy hx hy).1 hS, hflipped hS, Bool.not_not]
  · rw [(hcells' cx cy hx hy).2 hS, (hcells cx cy hx hy).2 hS]

/-- Settles O36: every row of the blank framebuffer is 0. -/
theorem clearScreenZeroesEveryCell : Obligations.ClearScreenZeroesEveryCell :=
  fun _ => ⟨_, rfl, rfl, cellAt_blank⟩

/-- Settles O38: the gate is asked before the range is checked. -/
theorem drawRetriesAtTheGateOrFaults : Obligations.DrawRetriesAtTheGateOrFaults := by
  intro x y n s
  exact ⟨fun hclosed => execDrw_gated x y n (drawGated_of_closed hclosed),
    fun hopen => execDrw_above x y (drawGated_of_open hopen)⟩

end Sys2Proof.Machine
end

section
/-! SUPPORT. Keypad and timers (44_keypad_timers.md): the two outcomes of a key skip by the key that `V[x]` names, and the
outcomes of `LD Vx, K` by the latch and the keys. -/

namespace Sys2Proof.Machine

/-! ### The key skips (R160, R161) -/

theorem keyIndex_of_eq {x : Reg} {s : State} {k : Fin 16} (h : s.v[x].toNat = k.val) : keyIndex x s = some k := by
  rcases keyIndex_cases x s with ⟨hlt, e⟩ | ⟨hge, -⟩
  · exact e.trans (congrArg some (Fin.ext h))
  · exact absurd (h ▸ k.isLt) (Nat.not_lt_of_ge hge)

theorem keyIndex_above {x : Reg} {s : State} (h : 15 < s.v[x].toNat) : keyIndex x s = none := by
  rcases keyIndex_cases x s with ⟨hlt, -⟩ | ⟨-, e⟩
  · exact absurd hlt (Nat.not_lt_of_ge h)
  · exact e

/-- A skip on a key writes `PC` by whether the key is as the skip asks. -/
theorem skipIf_key (c : Bool) (k : Fin 16) (s : State) :
    s.skipIf (s.keyDown k == c) = { s with pc := if s.keys[k] = c then s.pc + 4 else s.pc + 2 } := by
  simp only [skipIf_eq, beq_iff_eq, State.keyDown]

theorem execSkp_of_key {x : Reg} {k : Fin 16} {s : State} (h : keyIndex x s = some k) :
    execSkp x s = .next { s with pc := if s.keys[k] = true then s.pc + 4 else s.pc + 2 } := by
  simp only [execSkp, h, ← skipIf_key, beq_true]

theorem execSknp_of_key {x : Reg} {k : Fin 16} {s : State} (h : keyIndex x s = some k) :
    execSknp x s = .next { s with pc := if s.keys[k] = false then s.pc + 4 else s.pc + 2 } := by
  simp only [execSknp, h, ← skipIf_key, beq_false]

/-- The diagnostic of a key fault is a byte, which needs no saturation (R174). -/
theorem saturate16_byte (b : Byte) : saturate16 b.toNat = b.setWidth 16 := by
  rw [← saturate16_word (b.setWidth 16), BitVec.toNat_setWidth_of_le (by decide)]

theorem raiseAt_keyIndex_eq_faultedWith (i : Instr) (b : Byte) (s : State) :
    raiseAt .keyIndexOutOfRange i b.toNat s = s.faultedWith 7 (encode i) (b.setWidth 16) := by
  rw [raiseAt, raise_eq_faultedWith, saturate16_byte, codeOf]

theorem execSkp_of_no_key {x : Reg} {s : State} (h : keyIndex x s = none) :
    execSkp x s = .next (s.faultedWith 7 (encode (.skp x)) ((s.getV x).setWidth 16)) := by
  simp only [execSkp, h, raiseAt_keyIndex_eq_faultedWith]

theorem execSknp_of_no_key {x : Reg} {s : State} (h : keyIndex x s = none) :
    execSknp x s = .next (s.faultedWith 7 (encode (.sknp x)) ((s.getV x).setWidth 16)) := by
  simp only [execSknp, h, raiseAt_keyIndex_eq_faultedWith]

/-! ### The key wait (R162) -/

theorem lowestKeyDown_eq_none {s : State} (h : ∀ k : Fin 16, s.keys[k] = false) : lowestKeyDown s = none := by
  rcases lowestKeyDown_cases s with ⟨e, -⟩ | ⟨k, -, hk, -⟩
  · exact e
  · exact absurd hk (Bool.eq_false_iff.1 (h k))

/-- Two keys that are both the lowest one down are the same key. -/
theorem lowestKeyDown_eq_some {s : State} {k : Fin 16} (hk : s.keys[k] = true)
    (hlow : ∀ j : Fin 16, j < k → s.keys[j] = false) : lowestKeyDown s = some k := by
  rcases lowestKeyDown_cases s with ⟨-, hup⟩ | ⟨m, e, hm, hmlow⟩
  · exact absurd hk (Bool.eq_false_iff.1 (hup k))
  · have hkm : m ≤ k := not_lt.1 fun hlt => Bool.eq_false_iff.1 (hmlow k hlt) hk
    have hmk : k ≤ m := not_lt.1 fun hlt => Bool.eq_false_iff.1 (hlow m hlt) hm
    exact e.trans (congrArg some (le_antisymm hkm hmk))

theorem keyWaitBlocked_of_latched {s : State} {k : Fin 16} (h : s.keyLatch = some k) :
    keyWaitBlocked s = s.keys[k] := by
  simp only [keyWaitBlocked, h, State.keyDown]

theorem execLdVxK_unlatched (x : Reg) {s : State} (h : s.keyLatch = none) :
    execLdVxK x s = .next { s with keyLatch := lowestKeyDown s } := by
  simp only [execLdVxK, h]

theorem execLdVxK_held (x : Reg) {s : State} {k : Fin 16} (h : s.keyLatch = some k) (hk : s.keys[k] = true) :
    execLdVxK x s = .next s := by
  simp only [execLdVxK, h, keyWaitBlocked_of_latched h, hk, if_true]

theorem execLdVxK_released (x : Reg) {s : State} {k : Fin 16} (h : s.keyLatch = some k) (hk : s.keys[k] = false) :
    execLdVxK x s = .next ({ s with keyLatch := none }.setV x (BitVec.ofNat 8 k.val)).advance := by
  simp only [execLdVxK, h, keyWaitBlocked_of_latched h, hk, Bool.false_eq_true, if_false]

/-! ### The statements of 44_keypad_timers.md -/

/-- Settles O41: an empty latch takes the lowest key down, if any; a full one waits for its key's release. -/
theorem keyWaitLatchesAndCompletes : Obligations.KeyWaitLatchesAndCompletes := by
  intro x s
  refine ⟨fun hl hup => ?_, fun hl k hk hlow => ?_, fun k => execLdVxK_held x,
    fun k hl hk => (execLdVxK_released x hl hk).trans (next_setV _ x rfl)⟩
  · have hsame : { s with keyLatch := none } = s := by rw [← hl]
    exact (execLdVxK_unlatched x hl).trans (by rw [lowestKeyDown_eq_none hup, hsame])
  · exact (execLdVxK_unlatched x hl).trans (by rw [lowestKeyDown_eq_some hk hlow])

/-- Settles O40, by whether `V[x]` names a key. -/
theorem keySkips : Obligations.KeySkips := by
  intro x s
  constructor
  · intro k hk
    exact ⟨execSkp_of_key (keyIndex_of_eq hk), execSknp_of_key (keyIndex_of_eq hk)⟩
  · intro habove
    exact ⟨execSkp_of_no_key (keyIndex_above habove), execSknp_of_no_key (keyIndex_above habove)⟩

/-- Settles O42: the read of `DT` writes `V[x]` alone, and each write of a timer that timer alone. -/
theorem timerReadsAndWrites : Obligations.TimerReadsAndWrites :=
  fun x s => ⟨next_setV s x rfl, rfl, rfl⟩

end Sys2Proof.Machine
end

section
/-! SUPPORT. Ticks and faults (60_exceptions.md): when a tick is refused, when it retries, what it leaves, and the one
fault an instruction can raise; the host's timers and outputs. -/

namespace Sys2Proof.Machine

/-! ### Refused ticks (R170, R172, R185) -/

theorem running_iff (s : State) : s.running = true ↔ s.loaded = true ∧ s.fault = false := by
  simp only [State.running, Bool.and_eq_true, Bool.not_eq_true']

/-- Where it is allowed, a tick answers a next state: an instruction is never refused. -/
theorem fetchDecodeExecute_next (s : State) : ∃ t, fetchDecodeExecute s = .next t := by
  rcases fetchDecodeExecute_cases s with ⟨-, e⟩ | ⟨w, -, -, e⟩ | ⟨w, i, -, -, e⟩
  · exact ⟨_, e⟩
  · exact ⟨_, e⟩
  · obtain ⟨t, ht, -⟩ := exec_effect i s
    exact ⟨t, e.trans ht⟩

theorem running_iff_tick_next (s : State) : s.running = true ↔ ∃ t, tick s = .next t := by
  constructor
  · intro h
    obtain ⟨hl, hf⟩ := (running_iff s).1 h
    exact tick_running hl hf ▸ fetchDecodeExecute_next s
  · rintro ⟨t, ht⟩
    obtain ⟨hf, hl, -⟩ := tick_next ht
    exact (running_iff s).2 ⟨hl, hf⟩

theorem tick_eq_tickFaulted_iff (s : State) : tick s = .refused .tickFaulted ↔ s.fault = true := by
  rcases tick_cases s with ⟨hf, e⟩ | ⟨hf, -, e⟩ | ⟨hf, -, e⟩
  · simp only [e, hf]
  · simp only [e, hf, Host.Outcome.refused.injEq, reduceCtorEq]
  · obtain ⟨t, ht⟩ := fetchDecodeExecute_next s
    simp only [e, ht, hf, reduceCtorEq]

theorem tick_eq_tickNotLoaded_iff (s : State) :
    tick s = .refused .tickNotLoaded ↔ s.fault = false ∧ s.loaded = false := by
  rcases tick_cases s with ⟨hf, e⟩ | ⟨hf, hl, e⟩ | ⟨hf, hl, e⟩
  · simp only [e, hf, Host.Outcome.refused.injEq, reduceCtorEq, false_and]
  · simp only [e, hf, hl, and_self]
  · obtain ⟨t, ht⟩ := fetchDecodeExecute_next s
    simp only [e, ht, hl, reduceCtorEq, and_false]

theorem hostTick_eq_tickNotLoaded_iff (s : State) :
    hostTick s = .refused .tickNotLoaded ↔ s.fault = false ∧ s.loaded = false := by
  cases hf : s.fault with
  | true => simp only [hostTick_faulted hf, reduceCtorEq, false_and]
  | false => rw [hostTick_of_unfaulted hf, tick_eq_tickNotLoaded_iff, hf]

/-- Settles O11: a tick is refused, or it answers what the fetched instruction or the fault before it answers. -/
theorem ticksAreRefusedWhenNotRunning : Obligations.TicksAreRefusedWhenNotRunning := fun s =>
  ⟨tick_eq_tickFaulted_iff s, tick_eq_tickNotLoaded_iff s, running_iff_tick_next s, hostTick_eq_tickNotLoaded_iff s,
    hostTick_faulted, fun h => hostTick_of_unfaulted ((running_iff s).1 h).2⟩

/-- Settles O43: every instruction reaches its next state in one of the ways of `Effect`. -/
theorem everyInstructionAnswersANextState : Obligations.EveryInstructionAnswersANextState := by
  intro i s
  obtain ⟨t, ht, -⟩ := exec_effect i s
  exact ⟨t, ht⟩

/-! ### Retries (R152, R162, R171) -/

theorem fetchedInstr_of_decode {s : State} {w : Word} {i : Instr} (hw : s.fetch = some w)
    (hd : decodeWord w = some i) : fetchedInstr s = some i := by
  rw [fetchedInstr, hw, Option.bind_some, hd]

theorem tick_of_fetchedInstr {s : State} {i : Instr} (hr : s.running = true) (hi : fetchedInstr s = some i) :
    tick s = exec i s := by
  obtain ⟨hl, hf⟩ := (running_iff s).1 hr
  obtain ⟨w, hw, hd⟩ := Option.bind_eq_some_iff.1 hi
  exact (tick_running hl hf).trans (fetchDecodeExecute_of_decode hw hd)

theorem keyWaitBlocked_iff (s : State) : keyWaitBlocked s = true ↔ ∀ k, s.keyLatch = some k → s.keys[k] = true := by
  cases h : s.keyLatch with
  | none => simp [keyWaitBlocked, h]
  | some k => simp [keyWaitBlocked_of_latched h]

theorem drawGated_iff (s : State) : drawGated s = true ↔ s.params.vsyncGating = true ∧ s.vblank = false := by
  simp only [drawGated, Bool.and_eq_true, Bool.not_eq_true']

theorem drawGated_eq_false_iff (s : State) :
    drawGated s = false ↔ (s.params.vsyncGating = true → s.vblank = true) := by
  rw [← Bool.not_eq_true, drawGated_iff, not_and, Bool.not_eq_false]

/-- Only `LD Vx, K` and `DRW` retry (R171). -/
theorem retries_iff (i : Instr) (s : State) :
    retries i s = true ↔
      (∃ x, i = .ldVxK x ∧ keyWaitBlocked s = true) ∨ (∃ x y n, i = .drw x y n ∧ drawGated s = true) := by
  constructor
  · intro h
    unfold retries at h
    split at h
    · exact .inl ⟨_, rfl, h⟩
    · exact .inr ⟨_, _, _, rfl, h⟩
    · cases h
  · rintro (⟨x, rfl, hb⟩ | ⟨x, y, n, rfl, hg⟩)
    · exact hb
    · exact hg

/-- A blocked key wait writes at most the latch (R162). -/
theorem execLdVxK_blocked (x : Reg) {s : State} (h : keyWaitBlocked s = true) :
    ∃ latch, execLdVxK x s = .next { s with keyLatch := latch } := by
  cases hl : s.keyLatch with
  | none => exact ⟨_, execLdVxK_unlatched x hl⟩
  | some k => exact ⟨s.keyLatch, execLdVxK_held x hl (keyWaitBlocked_of_latched hl ▸ h)⟩

theorem exec_of_retries {i : Instr} {s : State} (h : retries i s = true) :
    ∃ latch, exec i s = .next { s with keyLatch := latch } ∧ (latch = s.keyLatch ∨ ∃ x, i = .ldVxK x) := by
  rcases (retries_iff i s).1 h with ⟨x, rfl, hb⟩ | ⟨x, y, n, rfl, hg⟩
  · obtain ⟨latch, e⟩ := execLdVxK_blocked x hb
    exact ⟨latch, e, .inr ⟨x, rfl⟩⟩
  · exact ⟨s.keyLatch, execDrw_gated x y n hg, .inl rfl⟩

/-- What a retrying tick answers: it is not refused, and it does not fault. -/
theorem tick_of_retries {s : State} {i : Instr} (hr : s.running = true) (hi : fetchedInstr s = some i)
    (h : retries i s = true) :
    ∃ latch, tick s = .next { s with keyLatch := latch } ∧ (latch = s.keyLatch ∨ ∃ x, i = .ldVxK x) :=
  tick_of_fetchedInstr hr hi ▸ exec_of_retries h

theorem tickOutcome_eq_retry_iff (s : State) :
    tickOutcome s = .retry ↔ s.running = true ∧ ∃ i, fetchedInstr s = some i ∧ retries i s = true := by
  rw [← Option.any_eq_true]
  constructor
  · intro h
    unfold tickOutcome at h
    split at h
    next t ht =>
      split_ifs at h with _ hretry
      exact ⟨(running_iff_tick_next s).2 ⟨t, ht⟩, hretry⟩
    all_goals cases h
  · rintro ⟨hr, hretry⟩
    obtain ⟨i, hi, h⟩ := (Option.any_eq_true ..).1 hretry
    obtain ⟨latch, ht, -⟩ := tick_of_retries hr hi h
    obtain ⟨-, hf⟩ := (running_iff s).1 hr
    simp only [tickOutcome, ht, hf, hretry, Bool.false_eq_true, if_false, if_true]

/-- Settles O12, by the two instructions that retry. -/
theorem retryIsKeyWaitOrGatedDraw : Obligations.RetryIsKeyWaitOrGatedDraw := by
  intro s
  rw [tickOutcome_eq_retry_iff]
  refine and_congr_right fun _ => ?_
  simp only [retries_iff, ← keyWaitBlocked_iff, ← drawGated_iff]
  constructor
  · rintro ⟨i, hi, ⟨x, rfl, hb⟩ | ⟨x, y, n, rfl, hg⟩⟩
    · exact .inl ⟨x, hi, hb⟩
    · exact .inr ⟨x, y, n, hi, hg⟩
  · rintro (⟨x, hi, hb⟩ | ⟨x, y, n, hi, hg⟩)
    · exact ⟨_, hi, .inl ⟨x, rfl, hb⟩⟩
    · exact ⟨_, hi, .inr ⟨x, y, n, rfl, hg⟩⟩

/-- Settles O13: a blocked key wait writes at most the latch, a gated draw nothing. -/
theorem retryChangesAtMostTheLatch : Obligations.RetryChangesAtMostTheLatch := by
  intro s h
  obtain ⟨hr, i, hi, hretry⟩ := (tickOutcome_eq_retry_iff s).1 h
  obtain ⟨latch, ht, hlatch⟩ := tick_of_retries hr hi hretry
  exact ⟨latch, ht, hlatch.imp_right fun ⟨x, hx⟩ => ⟨x, hx ▸ hi⟩⟩

/-! ### Faults of a tick (R173 to R175) -/

/-- An instruction that leaves the machine faulted, where it was not, raised its fault. -/
theorem exec_raiseAt_of_fault {i : Instr} {s t : State} (h : exec i s = .next t) (hs : s.fault = false)
    (ht : t.fault = true) : ∃ c n, t = raiseAt c i n s := by
  rcases (effect_of_exec h).status_cases with hst | hr
  · have hsame : t.fault = s.fault := congrArg StatusRecord.fault hst
    rw [hsame, hs] at ht
    cases ht
  · exact hr

/-- Settles O14: the fetch, the decode and the instruction each fault by `raise`, and the word an instruction gives is the
one it was decoded from. -/
theorem faultsArePreciseInATick : Obligations.FaultsArePreciseInATick := by
  intro s t h ht
  obtain ⟨hf, -, ⟨hpc, rfl⟩ | ⟨w, hw, -, rfl⟩ | ⟨w, i, hw, hd, hx⟩⟩ := tick_next_cases h
  · exact ⟨_, _, _, raise_eq_faultedWith .., .inl ⟨fetch_above s hpc, rfl, rfl⟩⟩
  · exact ⟨_, _, _, raise_eq_faultedWith .., .inr hw⟩
  · obtain ⟨c, n, rfl⟩ := exec_raiseAt_of_fault hx hf ht
    obtain ⟨-, henc⟩ := encodeOfDecodeIsTheWord w i hd
    exact ⟨_, _, _, raise_eq_faultedWith c (encode i) n s, .inr (henc ▸ hw)⟩

/-! ### The FAULT state (R172, R173, R185) -/

theorem hostCall_faulted {s : State} (c : HostCall) (h : s.fault = true) (hc : c ≠ .init) : hostCall c s = .next s := by
  cases c with
  | init => exact absurd rfl hc
  | load p => exact congrArg Host.Outcome.next (hostLoad_faulted p h)
  | tick => exact hostTick_faulted h
  | writeKeys k => exact congrArg Host.Outcome.next (hostWriteKeys_faulted k h)
  | advanceTimers => exact congrArg Host.Outcome.next (hostAdvanceTimers_faulted h)
  | setVblank b => exact congrArg Host.Outcome.next (hostSetVblank_faulted b h)

/-- Settles O15: a tick of the model's own is refused, and of the host's calls `init` alone tests no fault. -/
theorem faultStateIsStickyUntilInit : Obligations.FaultStateIsStickyUntilInit := by
  intro s h
  refine ⟨fun hc => ?_, fun c rest hcalls hc => ?_, fun rest hcalls => ⟨_, step_cons hcalls, rfl, rfl⟩⟩
  · exact (step_nil hc).trans ((tick_eq_tickFaulted_iff s).2 h)
  · exact (step_cons hcalls).trans (hostCall_faulted c h hc)

/-! ### What a tick leaves (R170) -/

/-- An instruction leaves `DT`, or is the `LD DT, Vx` that sets it to `V[x]` (R164). -/
theorem exec_dt {i : Instr} {s t : State} (h : exec i s = .next t) :
    t.dt = s.dt ∨ ∃ x, i = .ldDTVx x ∧ t.dt = s.getV x := by
  obtain ⟨-, -, hdt, -, -⟩ := (effect_of_exec h).devices
  rcases hdt with e | ⟨x, rfl⟩
  · exact .inl e
  · cases h
    exact .inr ⟨x, rfl, rfl⟩

/-- An instruction leaves `ST`, or is the `LD ST, Vx` that sets it to `V[x]` (R165). -/
theorem exec_st {i : Instr} {s t : State} (h : exec i s = .next t) :
    t.st = s.st ∨ ∃ x, i = .ldSTVx x ∧ t.st = s.getV x := by
  obtain ⟨-, -, -, hst, -⟩ := (effect_of_exec h).devices
  rcases hst with e | ⟨x, rfl⟩
  · exact .inl e
  · cases h
    exact .inr ⟨x, rfl, rfl⟩

/-- Settles O16: a fault before the instruction writes the record alone, and an instruction writes a timer only where it
is the one that sets it. -/
theorem tickLeavesTimersAndKeys : Obligations.TickLeavesTimersAndKeys := by
  intro s t h
  obtain ⟨hkeys, hloaded, hparams, hcalls⟩ := sameHostState_of_tick h
  refine ⟨hkeys, hparams, hloaded, hcalls, ?_⟩
  obtain ⟨-, -, ⟨-, rfl⟩ | ⟨w, -, -, rfl⟩ | ⟨w, i, hw, hd, hx⟩⟩ := tick_next_cases h
  · exact ⟨.inl rfl, .inl rfl⟩
  · exact ⟨.inl rfl, .inl rfl⟩
  · have hi := fetchedInstr_of_decode hw hd
    exact ⟨(exec_dt hx).imp_right fun ⟨x, hix, e⟩ => ⟨x, hix ▸ hi, e⟩,
      (exec_st hx).imp_right fun ⟨x, hix, e⟩ => ⟨x, hix ▸ hi, e⟩⟩

/-! ### The fault of each instruction (R174, R175) -/

theorem skipIf_sameStatus (c : Bool) (s : State) : sameStatus s (s.skipIf c) := by cases c <;> rfl

/-- The range check leaves the record as the access does, or raises code 6 with the highest address (R56). -/
theorem rangeChecked_status {i : Instr} {top : Nat} {s done t : State}
    (h : (.next (rangeChecked i top s done) : Host.Outcome State Fault Refusal) = .next t) (hs : sameStatus s done) :
    sameStatus s t ∨ 4095 < top ∧ t = s.faultedWith 6 (encode i) (saturate16 top) := by
  obtain rfl : rangeChecked i top s done = t := Host.Outcome.next.inj h
  rcases rangeChecked_cases i top s done with ⟨htop, -⟩ | ⟨-, e⟩
  · exact .inr ⟨htop, rangeChecked_eq_faultedWith htop⟩
  · exact .inl (e.symm ▸ hs)

section
variable {x : Reg} {s t : State}

theorem execCall_status {nnn : Addr12} (h : execCall nnn s = .next t) :
    sameStatus s t ∨ s.sp.val = 16 ∧ t = s.faultedWith 3 (encode (.call nnn)) s.pc := by
  by_cases hsp : s.sp.val < 16
  · cases (execCall_of_lt nnn s hsp).symm.trans h
    exact .inl rfl
  · cases (execCall_full nnn s hsp).symm.trans h
    exact .inr ⟨by omega, rfl⟩

theorem execRet_status (h : execRet s = .next t) :
    sameStatus s t ∨ s.sp.val = 0 ∧ t = s.faultedWith 4 (encode .ret) s.pc := by
  by_cases hsp : s.sp.val = 0
  · cases (execRet_empty s hsp).symm.trans h
    exact .inr ⟨hsp, rfl⟩
  · have hpop := execRet_of_succ s (j := ⟨s.sp.val - 1, by omega⟩) (sp' := ⟨s.sp.val - 1, by omega⟩)
      (by simp only; omega) rfl
    cases hpop.symm.trans h
    exact .inl rfl

theorem execSkp_status (h : execSkp x s = .next t) :
    sameStatus s t ∨ 15 < (s.getV x).toNat ∧ t = s.faultedWith 7 (encode (.skp x)) ((s.getV x).setWidth 16) := by
  rcases keyIndex_cases x s with ⟨_, hk⟩ | ⟨habove, hk⟩
  · cases (execSkp_of_key hk).symm.trans h
    exact .inl rfl
  · cases (execSkp_of_no_key hk).symm.trans h
    exact .inr ⟨habove, rfl⟩

theorem execSknp_status (h : execSknp x s = .next t) :
    sameStatus s t ∨ 15 < (s.getV x).toNat ∧ t = s.faultedWith 7 (encode (.sknp x)) ((s.getV x).setWidth 16) := by
  rcases keyIndex_cases x s with ⟨_, hk⟩ | ⟨habove, hk⟩
  · cases (execSknp_of_key hk).symm.trans h
    exact .inl rfl
  · cases (execSknp_of_no_key hk).symm.trans h
    exact .inr ⟨habove, rfl⟩

/-- The key wait raises no fault, whether it retries or completes. -/
theorem execLdVxK_status (h : execLdVxK x s = .next t) : sameStatus s t := by
  cases hb : keyWaitBlocked s with
  | true =>
    obtain ⟨latch, e⟩ := execLdVxK_blocked x hb
    cases e.symm.trans h
    rfl
  | false =>
    cases hl : s.keyLatch with
    | none => simp [keyWaitBlocked, hl] at hb
    | some k =>
      cases (execLdVxK_released x hl (keyWaitBlocked_of_latched hl ▸ hb)).symm.trans h
      rfl

/-- `DRW` asks the gate before it checks the range, and checks nothing where it reads no byte (R175, D22). -/
theorem execDrw_status {y : Reg} {n : Nat} (h : execDrw x y n s = .next t) :
    sameStatus s t ∨ drawGated s = false ∧ 0 < n ∧ 4095 < effectiveAddress s (n - 1) ∧
      t = s.faultedWith 6 (encode (.drw x y n)) (saturate16 (effectiveAddress s (n - 1))) := by
  cases hg : drawGated s with
  | true =>
    cases (execDrw_gated x y n hg).symm.trans h
    exact .inl rfl
  | false =>
    rcases Nat.eq_zero_or_pos n with h0 | hn
    · cases (execDrw_of_le x y hg (.inl h0)).symm.trans h
      exact .inl rfl
    · have hchecked := (execDrw_of_not_gated x y hg hn.ne').symm.trans h
      exact (rangeChecked_status hchecked rfl).imp_right fun ⟨htop, e⟩ => ⟨rfl, hn, htop, e⟩

theorem execLdB_status (h : execLdB x s = .next t) :
    sameStatus s t ∨ 4095 < effectiveAddress s 2 ∧
      t = s.faultedWith 6 (encode (.ldB x)) (saturate16 (effectiveAddress s 2)) :=
  rangeChecked_status h rfl

theorem execStoreRegs_status (h : execStoreRegs x s = .next t) :
    sameStatus s t ∨ 4095 < effectiveAddress s x.val ∧
      t = s.faultedWith 6 (encode (.storeRegs x)) (saturate16 (effectiveAddress s x.val)) :=
  rangeChecked_status h rfl

theorem execLoadRegs_status (h : execLoadRegs x s = .next t) :
    sameStatus s t ∨ 4095 < effectiveAddress s x.val ∧
      t = s.faultedWith 6 (encode (.loadRegs x)) (saturate16 (effectiveAddress s x.val)) :=
  rangeChecked_status h rfl

end

/-- Settles O50: the instructions with a check fault on it alone, and the others write no field of the record. -/
theorem instructionsFaultOnlyByTheirOwnCheck : Obligations.InstructionsFaultOnlyByTheirOwnCheck := by
  intro i s t h
  cases i with
  | call nnn => exact (execCall_status h).imp_right fun ⟨hsp, e⟩ => .inl ⟨⟨nnn, rfl⟩, hsp, e⟩
  | ret => exact (execRet_status h).imp_right fun ⟨hsp, e⟩ => .inr (.inl ⟨rfl, hsp, e⟩)
  | drw x y n =>
    exact (execDrw_status h).imp_right fun ⟨hg, hn, htop, e⟩ =>
      .inr (.inr (.inl ⟨x, y, n, rfl, (drawGated_eq_false_iff s).1 hg, hn, htop, e⟩))
  | ldB x => exact (execLdB_status h).imp_right fun ⟨htop, e⟩ => .inr (.inr (.inr (.inl ⟨x, rfl, htop, e⟩)))
  | storeRegs x =>
    exact (execStoreRegs_status h).imp_right fun ⟨htop, e⟩ =>
      .inr (.inr (.inr (.inr (.inl ⟨x, .inl rfl, htop, e⟩))))
  | loadRegs x =>
    exact (execLoadRegs_status h).imp_right fun ⟨htop, e⟩ =>
      .inr (.inr (.inr (.inr (.inl ⟨x, .inr rfl, htop, e⟩))))
  | skp x =>
    exact (execSkp_status h).imp_right fun ⟨habove, e⟩ =>
      .inr (.inr (.inr (.inr (.inr ⟨x, .inl rfl, habove, e⟩))))
  | sknp x =>
    exact (execSknp_status h).imp_right fun ⟨habove, e⟩ =>
      .inr (.inr (.inr (.inr (.inr ⟨x, .inr rfl, habove, e⟩))))
  | ldVxK x => exact .inl (execLdVxK_status h)
  | seImm _ _ | sneImm _ _ | seReg _ _ | sneReg _ _ => cases h; exact .inl (skipIf_sameStatus ..)
  | cls | jp _ | jpV0 _ | ldI _ | addI _ | ldF _ | ldImm _ _ | addImm _ _ | ldReg _ _ | orReg _ _ | andReg _ _
  | xorReg _ _ | addReg _ _ | subReg _ _ | shr _ _ | subn _ _ | shl _ _ | rnd _ _ | ldVxDT _ | ldDTVx _
  | ldSTVx _ => cases h; exact .inl rfl

/-! ### The diagnostic of a fault (R174) -/

/-- An outcome with the record of a saturated number gives the number itself up to 65535. -/
theorem exists_saturated_info {o : Host.Outcome State Fault Refusal} {s : State} {code : BitVec 3} {word : Word}
    {n : Nat} (h : o = .next (s.faultedWith code word (saturate16 n))) :
    ∃ t, o = .next t ∧ t.faultCode = code ∧ t.faultInfo.toNat = min n 65535 :=
  ⟨_, h, rfl, saturate16_toNat n⟩

/-- Settles O60: each operation puts the saturated number into the record. -/
theorem faultInfoSaturates : Obligations.FaultInfoSaturates := by
  refine ⟨saturate16_toNat, fun s p hf hp => ?_, fun x s h => exists_saturated_info (execLdB_above h),
    fun x s h => ⟨exists_saturated_info (execStoreRegs_above h), exists_saturated_info (execLoadRegs_above h)⟩,
    fun x y n s hopen hn htop => exists_saturated_info (execDrw_above x y (drawGated_of_open hopen) hn htop)⟩
  exact ⟨_, congrArg Host.Outcome.next (hostLoad_tooLarge hf hp), rfl, saturate16_toNat p.length⟩

/-! ### The host's writes without a fault (R182 to R184) -/

theorem hostWriteKeys_of_unfaulted {s : State} (k : Vector Bool 16) (h : s.fault = false) :
    hostWriteKeys k s = { s with keys := k } := by
  simp [hostWriteKeys, h]

theorem hostAdvanceTimers_of_unfaulted {s : State} (h : s.fault = false) :
    hostAdvanceTimers s = { s with dt := countDown s.dt, st := countDown s.st } := by
  simp [hostAdvanceTimers, h]

theorem hostSetVblank_of_unfaulted {s : State} (b : Bool) (h : s.fault = false) :
    hostSetVblank b s = { s with vblank := b } := by
  simp [hostSetVblank, h]

/-- A timer counts down as a natural number, whose subtraction stops at 0 (R183). -/
theorem countDown_toNat (b : Byte) : (countDown b).toNat = b.toNat - 1 := by
  unfold countDown
  split_ifs with h
  · rw [h]
    rfl
  · exact BitVec.toNat_sub_of_le (by bv_omega)

/-- Settles O53: each of the three writes its fields where no fault holds it back. -/
theorem hostWritesKeysTimersAndVblank : Obligations.HostWritesKeysTimersAndVblank := by
  intro s h
  exact ⟨fun k => congrArg Host.Outcome.next (hostWriteKeys_of_unfaulted k h),
    ⟨_, congrArg Host.Outcome.next (hostAdvanceTimers_of_unfaulted h), rfl, countDown_toNat _, countDown_toNat _⟩,
    fun b => congrArg Host.Outcome.next (hostSetVblank_of_unfaulted b h)⟩

/-! ### The outputs (R186, R187) -/

theorem length_framebuffer (s : State) : (framebuffer s).length = 2048 := by
  simp only [framebuffer, List.length_map, List.length_range]

theorem framebuffer_getElem? (s : State) {j : Nat} (h : j < 2048) :
    (framebuffer s)[j]? = some (cellAt s.fb (j % 64) (j / 64)) := by
  simp only [framebuffer, List.getElem?_map, List.getElem?_range h, Option.map_some]

theorem soundActive_iff (s : State) : soundActive s = true ↔ s.st.toNat ≠ 0 := by
  rw [soundActive, bne_iff_ne, ne_eq, ← BitVec.toNat_inj]
  rfl

/-- Settles O56: the index `cy*64 + cx` gives back the column and the row. -/
theorem outputsShowTheFramebufferAndSound : Obligations.OutputsShowTheFramebufferAndSound := by
  refine fun s => ⟨length_framebuffer s, fun cx cy hx hy => ?_, soundActive_iff s⟩
  have hcol : (cy * 64 + cx) % 64 = cx := by omega
  have hrow : (cy * 64 + cx) / 64 = cy := by omega
  rw [framebuffer_getElem? s (by omega), hcol, hrow]

end Sys2Proof.Machine
end

section
/-! SUPPORT. Reset and hazards (70_reset_and_hazards.md): the copy and the fault of `load`, and the idle loop as a jump
that leaves the state where it is. -/

namespace Sys2Proof.Machine

/-! ### The load (R202, R203) -/

/-- The record of a program that is too long, with `FAULT_PC` as the free value (R174; log 5). -/
theorem raiseLoadTooLarge_eq_faultedWith (len : Nat) (s : State) :
    raiseLoadTooLarge len s =
      { s.faultedWith 1 0 (saturate16 len) with
        faultPc := Config.loadFaultPc s.freeIndex, freeIndex := s.freeIndex + 1 } := rfl

/-- Settles O55: a program that fits is one store at 0x200, and one that does not is the fault alone. -/
theorem loadCopiesTheProgramOrFaults : Obligations.LoadCopiesTheProgramOrFaults := by
  intro s p hf hm
  constructor
  · intro hp
    exact ⟨_, congrArg Host.Outcome.next (hostLoad_fits hf hp), rfl,
      fun k hk => readByte_storeBytes_add hm 0x200 p hk, sameMemoryExcept_storeBytes s 0x200 p⟩
  · intro hp
    have hload : hostLoad p s = _ := (hostLoad_tooLarge hf hp).trans (raiseLoadTooLarge_eq_faultedWith p.length s)
    exact ⟨_, congrArg Host.Outcome.next hload, rfl⟩

/-! ### The idle loop (R214) -/

/-- A tick completes where its instruction neither retries nor ends in a fault (R171). -/
theorem tickOutcome_eq_completed {s t : State} {i : Instr} (hr : s.running = true) (hi : fetchedInstr s = some i)
    (hretry : retries i s = false) (hx : exec i s = .next t) (ht : t.fault = false) : tickOutcome s = .completed := by
  have htick : tick s = .next t := (tick_of_fetchedInstr hr hi).trans hx
  simp only [tickOutcome, htick, ht, hi, Option.any_some, hretry, Bool.false_eq_true, if_false]

/-- The jump writes `PC` alone (R102), here with the value it has. -/
theorem exec_jp_self {s : State} {a : Addr12} (h : s.pc = addressOf a) : exec (.jp a) s = .next s := by
  rw [jumpGoesToItsAddress, ← addressOf_eq, ← h]

/-- The word of the idle loop is the jump to its own address: R214's `0x1000 + a` is the encoding of `JP a`. -/
theorem fetchedInstr_of_idleAt {s : State} {a : Addr12} (h : s.idleAt a = true) :
    s.pc = addressOf a ∧ fetchedInstr s = some (.jp a) := by
  simp only [State.idleAt, Bool.and_eq_true, beq_iff_eq] at h
  obtain ⟨hpc, hw⟩ := h
  obtain ⟨hd, -⟩ := decodeOfEncodeIsTheInstruction (.jp a) rfl
  exact ⟨hpc, fetchedInstr_of_decode hw hd⟩

/-- Settles O59: the instruction fetched at the idle loop is the jump to itself, which does not retry. -/
theorem idleLoopIsStable : Obligations.IdleLoopIsStable := by
  intro s a hcalls hr hidle
  obtain ⟨hpc, hi⟩ := fetchedInstr_of_idleAt hidle
  obtain ⟨-, hf⟩ := (running_iff s).1 hr
  have hx : exec (.jp a) s = .next s := exec_jp_self hpc
  have hstep : step s = .next s :=
    calc step s = tick s := step_nil hcalls
      _ = exec (.jp a) s := tick_of_fetchedInstr hr hi
      _ = .next s := hx
  exact ⟨hstep, tickOutcome_eq_completed hr hi rfl hx hf⟩

end Sys2Proof.Machine
end
